-- ==== Sys2Proof/Word.lean ====
section
/-! DEFINITION. Word.lean: the widths of QDEC's values. Nothing here decides a behaviour. -/

namespace Sys2Proof

/-- One byte of the host port (30_encoding.md R54). -/
abbrev Byte := BitVec 8

/-- A position counter's 32-bit vector, read as two's complement by `BitVec.toInt` (10_state.md R10). -/
abbrev Position := BitVec 32

/-- A pin identifier; `PIN_ID_WIDTH` = 8 (00_scope.md section 3, 92_eei_decisions.md D3). -/
abbrev PinId := BitVec 8

/-- One 16-bit event word of format E (30_encoding.md R53). -/
abbrev EventWord := BitVec 16

end Sys2Proof
end

