-- ==== Sys2Proof/Config.lean ====
section
/-! DEFINITION. Config.lean: what a deployment of QDEC fixes: the pin assignment and `PPR`
(00_scope.md R3) and the opcode bytes (30_encoding.md R58). A configuration is a parameter of the
machine that no operation writes. The host's interface has no place for a parameter of the step, so
State carries it in a field that no step changes, and a statement about every state is a statement
about every configuration (log entry 1). -/

namespace Sys2Proof

/-- The two channels, numbered 1 and 2 (00_scope.md R2). -/
inductive Chan where
  | one
  | two
  deriving DecidableEq, Repr

/-- The role of an encoder pin within its channel (10_state.md R20). -/
inductive Role where
  | a
  | b
  deriving DecidableEq, Repr

/-- The four pin identifiers, before any check (00_scope.md R3). -/
structure PinAssignment where
  a1 : PinId
  b1 : PinId
  a2 : PinId
  b2 : PinId
  deriving DecidableEq, Repr

/-- The check of 00_scope.md R4: the four identifiers are pairwise distinct. -/
def PinAssignment.wf (p : PinAssignment) : Bool :=
  p.a1 != p.b1 && p.a1 != p.a2 && p.a1 != p.b2 && p.b1 != p.a2 && p.b1 != p.b2 && p.a2 != p.b2

/-- A configuration together with the proof of its check: "A model takes a configuration only
together with a proof of this check" (00_scope.md R4). `ppr` is a positive integer that no rule of
the block reads (10_state.md R21). -/
structure Config where
  pins : PinAssignment
  ppr : Nat
  pins_wf : pins.wf = true := by decide
  ppr_pos : 0 < ppr := by decide
  deriving DecidableEq, Repr

/-- The check as a function: a configuration where the parameters pass it, nothing where they do
not (00_scope.md R4; 93_implementation_defined.md U12). -/
def Config.check (p : PinAssignment) (ppr : Nat) : Option Config :=
  if hp : p.wf = true then
    if hn : 0 < ppr then some { pins := p, ppr := ppr, pins_wf := hp, ppr_pos := hn } else none
  else none

/-- DESIGN CHOICE (log entry 1): the configuration that State.reset carries, the pins of the spec's
examples (92_eei_decisions.md D21) and the `PPR` of 95_test_vectors.md V4. -/
def exampleConfig : Config where
  pins := { a1 := 2, b1 := 3, a2 := 4, b2 := 5 }
  ppr := 800

/-- `PIN_A[c]`. -/
def Config.pinA (cfg : Config) : Chan → PinId
  | .one => cfg.pins.a1
  | .two => cfg.pins.a2

/-- `PIN_B[c]`. -/
def Config.pinB (cfg : Config) : Chan → PinId
  | .one => cfg.pins.b1
  | .two => cfg.pins.b2

/-- The opcode bytes of 00_scope.md section 3, the spec's defaults. "A deployment that wants other
values changes the `OPC_*` parameters ... and nothing else" (30_encoding.md R58; log entry 7). -/
def opcRdpos : Byte := 0x10
/-- `OPC_RSTPOS`. -/
def opcRstpos : Byte := 0x20
/-- `OPC_ADDPOS`. -/
def opcAddpos : Byte := 0x30
/-- `OPC_TGLIRQ`. -/
def opcTglirq : Byte := 0x40
/-- `OPC_TGLRPT`. -/
def opcTglrpt : Byte := 0x50

end Sys2Proof
end

