-- ==== Sys2Proof/Syntax.lean ====
section
/-! DEFINITION. Syntax.lean: the operations of QDEC, one constructor per row of
spec/opcode_table.json, and the two ports their encodings travel on. -/

namespace Sys2Proof

/-- The edge kind `k` of `EDGE g, k` (30_encoding.md R53, R60): `ev` = 00, 01, 10, 11 in this order. -/
inductive EdgeKind where
  | none
  | fall
  | rise
  | both
  deriving DecidableEq, Repr

/-- The seven operations (00_scope.md R8; 30_encoding.md R58, R60). -/
inductive Instr where
  /-- RDPOS c: read a position (42_position_access.md R90). -/
  | rdpos (c : Chan)
  /-- RSTPOS c: zero a position (42_position_access.md R91). -/
  | rstpos (c : Chan)
  /-- ADDPOS c, imm: add a signed offset to a position (42_position_access.md R92). -/
  | addpos (c : Chan) (imm : Position)
  /-- TGLIRQ: toggle pin-change notification (43_control.md R100). -/
  | tglirq
  /-- TGLRPT: toggle active reporting (43_control.md R101). -/
  | tglrpt
  /-- UNREC b: an unassigned byte (43_control.md R102). -/
  | unrec (b : Byte)
  /-- EDGE g, k: one edge notification (41_interrupt_router.md R81). -/
  | edge (g : PinId) (k : EdgeKind)
  deriving DecidableEq, Repr

/-- What one transaction carries: a byte string on the host port (formats H1 and H5) or an event
word on the event port (format E) (30_encoding.md R50 to R53). -/
inductive Transaction where
  | host (bytes : List Byte)
  | event (w : EventWord)
  deriving DecidableEq, Repr

end Sys2Proof
end

