-- ==== Sys2Proof/WellFormed.lean ====
section
/-! DEFINITION. WellFormed.lean: which terms of Instr are operations of the block. Channels, edge
kinds, pin identifiers and immediates are right by their types; the operand of UNREC is checked. -/

namespace Sys2Proof

/-- The eight assigned first bytes, column 1 of the table of 30_encoding.md R58. -/
def assignedBytes : List Byte := [0x10, 0x11, 0x20, 0x21, 0x30, 0x31, 0x40, 0x50]

/-- An operation is well formed when its operands are ones the encoding admits: `UNREC b` takes
"a byte value not assigned by rule R58" (30_encoding.md R60). -/
def Instr.wf : Instr → Bool
  | .rdpos _ => true
  | .rstpos _ => true
  | .addpos _ _ => true
  | .tglirq => true
  | .tglrpt => true
  | .unrec b => !assignedBytes.contains b
  | .edge _ _ => true

end Sys2Proof
end

