-- ==== Sys2Proof/Decode.lean ====
section
/-! DEFINITION. Decode.lean: byte order, the decoder of the two ports and the encoder
(30_encoding.md R51 to R59). The decoder is total; on the host port nothing is illegal (R59), so the
only answers other than an operation are the two reasons to wait. -/

namespace Sys2Proof

/-- `le32(v)`: the four bytes of `v`, least significant first (20_memory.md R32). -/
def le32 (v : Position) : List Byte :=
  [v.extractLsb' 0 8, v.extractLsb' 8 8, v.extractLsb' 16 8, v.extractLsb' 24 8]

/-- `unle32(b0, b1, b2, b3)` = `{b3, b2, b1, b0}` (20_memory.md R33). -/
def unle32 (b0 b1 b2 b3 : Byte) : Position := b3 ++ b2 ++ b1 ++ b0

/-- The channel select `c`, bit 0 of the opcode byte: channel `c + 1` (30_encoding.md R56). -/
def chanSelect (b0 : Byte) : Chan := if b0.getLsbD 0 then .two else .one

/-- The bit that selects a channel (30_encoding.md R56, R60). -/
def chanBit : Chan → Byte
  | .one => 0
  | .two => 1

/-- Match with mask 0xFE, the three rows of 30_encoding.md R58 that take a channel. -/
def inGroup (b0 opc : Byte) : Bool := (b0 &&& 0xFE) == opc

/-- The length in bytes of the host operation that begins with `b0` (30_encoding.md R54). -/
def hostLength (b0 : Byte) : Nat := if inGroup b0 opcAddpos then 5 else 1

/-- Why the host port has no operation to run yet. -/
inductive DecodeWait where
  /-- No byte has arrived: the port waits for a first byte (43_control.md R103). Safe. -/
  | noByte
  /-- An ADDPOS whose trailing bytes have not all arrived waits for them (30_encoding.md R57). Safe. -/
  | operandBytes
  deriving DecidableEq, Repr

/-- The operation at the head of a byte string on the host port, and the bytes after it
(30_encoding.md R54, R55, R58, R59). -/
def decodeHost : List Byte → Except DecodeWait (Instr × List Byte)
  | [] => .error .noByte
  | b0 :: rest =>
    if inGroup b0 opcRdpos then .ok (.rdpos (chanSelect b0), rest)
    else if inGroup b0 opcRstpos then .ok (.rstpos (chanSelect b0), rest)
    else if inGroup b0 opcAddpos then
      match rest with
      | b1 :: b2 :: b3 :: b4 :: rest' => .ok (.addpos (chanSelect b0) (unle32 b1 b2 b3 b4), rest')
      | _ => .error .operandBytes
    else if b0 == opcTglirq then .ok (.tglirq, rest)
    else if b0 == opcTglrpt then .ok (.tglrpt, rest)
    else .ok (.unrec b0, rest)

/-- The `gpio` field, bits 7:0 of an event word (30_encoding.md R53). -/
def eventGpio (w : EventWord) : PinId := w.extractLsb' 0 8

/-- The `ev` field, bits 9:8 of an event word: bit 9 RISE, bit 8 FALL (30_encoding.md R53). -/
def eventKind (w : EventWord) : EdgeKind :=
  match w.getLsbD 9, w.getLsbD 8 with
  | false, false => .none
  | false, true => .fall
  | true, false => .rise
  | true, true => .both

/-- Every 16-bit value is an EDGE; bits 15:10 are ignored (30_encoding.md R53, R58). -/
def decodeEvent (w : EventWord) : Instr := .edge (eventGpio w) (eventKind w)

/-- The operation one transaction carries. -/
def decode : Transaction → Except DecodeWait Instr
  | .host bs =>
    match decodeHost bs with
    | .ok (i, _) => .ok i
    | .error e => .error e
  | .event w => .ok (decodeEvent w)

/-- The bits 9:8 of the event word that spell an edge kind (30_encoding.md R60). -/
def kindBits : EdgeKind → BitVec 2
  | .none => 0b00
  | .fall => 0b01
  | .rise => 0b10
  | .both => 0b11

/-- The encoding of an operation (30_encoding.md R52, R53, R60): bits 15:10 of an event word are
written 0. -/
def encode : Instr → Transaction
  | .rdpos c => .host [opcRdpos + chanBit c]
  | .rstpos c => .host [opcRstpos + chanBit c]
  | .addpos c imm => .host ((opcAddpos + chanBit c) :: le32 imm)
  | .tglirq => .host [opcTglirq]
  | .tglrpt => .host [opcTglrpt]
  | .unrec b => .host [b]
  | .edge g k => .event ((0 : BitVec 6) ++ kindBits k ++ g)

/-- The five bytes of a host-port table word: byte 0 is bits 7:0; every bit from `nbits` up is 0. -/
def hostWordBytes (nbits w : Nat) : List Byte :=
  let v := BitVec.ofNat 40 (w % 2 ^ nbits)
  [v.extractLsb' 0 8, v.extractLsb' 8 8, v.extractLsb' 16 8, v.extractLsb' 24 8,
    v.extractLsb' 32 8]

/-- The transaction a row of spec/opcode_table.json stands for: the row of 16 bits (format E) goes
to the event port, a row of any other width to the host port as exactly the bytes of its operation. -/
def tableTransaction (nbits w : Nat) : Transaction :=
  if nbits = 16 then .event (BitVec.ofNat 16 w)
  else
    match hostWordBytes nbits w with
    | [] => .host []
    | b0 :: rest => .host ((b0 :: rest).take (hostLength b0))

/-- The instruction the decoder reads from an instruction whose bits are `w`. -/
def decodeTableWord (nbits w : Nat) : Option Instr :=
  match decode (tableTransaction nbits w) with
  | .ok i => some i
  | .error _ => none

end Sys2Proof
end

