-- ==== Sys2Proof/Machine/State.lean ====
section
/-! DEFINITION. Machine/State.lean: everything the spec gives QDEC (10_state.md), what the ports hold
(30_encoding.md R50), and the model's own fields for what a step reads from outside the block: the
pin levels, the configuration and the arrivals still to come. -/

namespace Sys2Proof.Machine

/-- The state of one EncoderChannel: the position counter and the pin-state history
(10_state.md R10, R11). -/
structure Channel where
  pos : Position
  lastA : Bool
  lastB : Bool
  deriving DecidableEq, Repr

/-- A result handed to the host port (30_encoding.md R50): the bytes of RDPOS or the bit of TGLIRQ. -/
inductive HostResult where
  | bytes (bs : List Byte)
  | bit (v : Bool)
  deriving DecidableEq, Repr

/-- One call of the enable output, `enable_edge_interrupt(id, rising, falling, enabled)`
(30_encoding.md R50, 43_control.md R100). -/
structure EnableCall where
  pin : PinId
  rising : Bool
  falling : Bool
  enabled : Bool
  deriving DecidableEq, Repr

/-- One thing that can come from outside between two operations: the schedule of 20_memory.md R40 is
a list of these (log entry 2). -/
inductive Arrival where
  /-- A byte on the command side of the host port (foreground context). -/
  | hostByte (b : Byte)
  /-- An event word on the event port (interrupt context). -/
  | event (w : EventWord)
  /-- `PIN g = v`: the environment sets a pin level (30_encoding.md R60). -/
  | pin (g : PinId) (v : Bool)
  /-- The reset input (70_reset_and_hazards.md R150). -/
  | reset
  deriving DecidableEq, Repr

/-- The whole state of the model. -/
structure State where
  /-- `POS[1]`, `LAST_A[1]`, `LAST_B[1]`. -/
  ch1 : Channel
  /-- `POS[2]`, `LAST_A[2]`, `LAST_B[2]`. -/
  ch2 : Channel
  /-- `INT_EN`, CTRL bit 0 (10_state.md R17). -/
  intEn : Bool
  /-- `ACT_RPT`, CTRL bit 1 (10_state.md R17). -/
  actRpt : Bool
  /-- The bytes of a host operation that has not all arrived (30_encoding.md R57). -/
  hostRx : List Byte
  /-- The results handed to the host port so far, oldest first (30_encoding.md R50; log entry 4). -/
  results : List HostResult
  /-- The calls driven on the enable output so far, oldest first (43_control.md R100; log entry 4). -/
  enableCalls : List EnableCall
  /-- The environment's pin levels: the identifiers at level 1, rising (log entry 3). -/
  pins : List PinId
  /-- The configuration, which no step writes (00_scope.md R3; log entry 1). -/
  config : Config
  /-- What is still to arrive, first to come first (20_memory.md R40; log entry 2). -/
  arrivals : List Arrival
  deriving DecidableEq, Repr

/-- The reasons a step can stop with a fault: none. "No operation of the block raises a synchronous
exception, trap or fault, in any state, for any operand" (60_exceptions.md R120). -/
inductive Fault where
  deriving DecidableEq, Repr

/-- The reasons a step can be refused. -/
inductive Refusal where
  /-- Raised by exec for an instruction that has no meaning yet; no instruction of this model is
  left so. Safe. -/
  | notModelled (mnemonic : String)
  deriving DecidableEq, Repr

/-- A channel after reset: position 0 and history 00, whatever the pins hold (10_state.md R24). -/
def Channel.reset : Channel := { pos := 0, lastA := false, lastB := false }

/-- The machine right after reset (10_state.md R24, 70_reset_and_hazards.md R150): every bit of the
block is 0 and no operation is in progress. The configuration, the pin levels and the arrivals are
not the block's to reset; their values here are DESIGN CHOICE (log entries 1, 2, 3, 4). -/
def State.reset : State where
  ch1 := Channel.reset
  ch2 := Channel.reset
  intEn := false
  actRpt := false
  hostRx := []
  results := []
  enableCalls := []
  pins := []
  config := exampleConfig
  arrivals := []

end Sys2Proof.Machine
end

