-- ==== Sys2Proof/Machine/Ops.lean ====
section
/-! DEFINITION. Machine/Ops.lean: the primitives of 00_scope.md section 5 over State: the channel
space, the pin levels, the ports, interrupt entry and return, and the reset event. -/

namespace Sys2Proof.Machine

/-- The channel a number selects. -/
def State.chan (s : State) : Chan → Channel
  | .one => s.ch1
  | .two => s.ch2

/-- Writes one channel whole; the other channel and everything else stay (10_state.md R14). -/
def State.setChan (s : State) : Chan → Channel → State
  | .one, x => { s with ch1 := x }
  | .two, x => { s with ch2 := x }

/-- `MemRead(c, 4)`: the whole 32-bit cell of the channel space (20_memory.md R30, R35). -/
def State.memRead (s : State) (c : Chan) : Position := (s.chan c).pos

/-- `MemWrite(c, 4, v)`: `POS[c] <- v`; the history bits stay (20_memory.md R30, 42_position_access.md R93). -/
def State.memWrite (s : State) (c : Chan) (v : Position) : State :=
  s.setChan c { s.chan c with pos := v }

/-- The pin-state history `(LAST_A[c], LAST_B[c])` (10_state.md R11). -/
def State.history (s : State) (c : Chan) : Bool × Bool := ((s.chan c).lastA, (s.chan c).lastB)

/-- `add32(x, y)`: addition modulo 2^32, the overflow policy `wrap`
(40_quadrature_decode.md R76; log entry 8). -/
def add32 (x y : Position) : Position := x + y

/-- The level a list of high pins gives a pin. -/
def pinLevel (high : List PinId) (g : PinId) : Bool := high.contains g

/-- Puts a pin into the rising list of high pins. -/
def raisePin (g : PinId) : List PinId → List PinId
  | [] => [g]
  | p :: ps =>
    if g = p then p :: ps
    else if g.toNat < p.toNat then g :: p :: ps
    else p :: raisePin g ps

/-- The high pins after the environment sets pin `g` to `v` (30_encoding.md R60). -/
def setPinLevel (high : List PinId) (g : PinId) (v : Bool) : List PinId :=
  if v then raisePin g high else high.filter (· != g)

/-- The canonical form of the high pins: strictly rising, so that equal levels are equal data. -/
def pinsWf : List PinId → Bool
  | [] => true
  | [_] => true
  | p :: q :: ps => decide (p.toNat < q.toNat) && pinsWf (q :: ps)

/-- `Pin(p)`, the level the environment holds on a pin at this instant (00_scope.md section 5). -/
def State.pin (s : State) (g : PinId) : Bool := pinLevel s.pins g

/-- `PIN g = v`, a step of the environment; the block never writes a pin (00_scope.md R5). -/
def State.setPin (s : State) (g : PinId) (v : Bool) : State :=
  { s with pins := setPinLevel s.pins g v }

/-- `respond(...)`: hands a result to the host port (00_scope.md section 5). -/
def State.respond (s : State) (r : HostResult) : State := { s with results := s.results ++ [r] }

/-- One call of the enable output (30_encoding.md R50). -/
def State.enableEdgeInterrupt (s : State) (p : PinId) (rising falling enabled : Bool) : State :=
  { s with enableCalls := s.enableCalls ++ [{ pin := p, rising, falling, enabled }] }

/-- The enable calls of TGLIRQ, in the order 43_control.md R100 writes them; both edge kinds
(92_eei_decisions.md D18). -/
def State.driveEnables (s : State) (new : Bool) : State :=
  (((s.enableEdgeInterrupt (s.config.pinA .one) true true new).enableEdgeInterrupt
    (s.config.pinB .one) true true new).enableEdgeInterrupt
    (s.config.pinA .two) true true new).enableEdgeInterrupt
    (s.config.pinB .two) true true new

/-- Taking the one interrupt of the block: "the block saves nothing and changes no mode, mask or
stack"; `INT_EN` is not cleared (60_exceptions.md R127). -/
def State.interruptEntry (s : State) : State := s

/-- Returning from it: "Nothing is restored, because nothing was saved" (60_exceptions.md R128). -/
def State.interruptReturn (s : State) : State := s

/-- The reset event on a running block: every bit of the block and the operation in progress are
cleared; the configuration, the pins and what is outside the block stay (10_state.md R24,
70_reset_and_hazards.md R150; log entry 4). -/
def State.restart (s : State) : State :=
  { s with
    ch1 := Channel.reset
    ch2 := Channel.reset
    intEn := false
    actRpt := false
    hostRx := [] }

end Sys2Proof.Machine
end

