-- ==== Sys2Proof/Machine/Flags.lean ====
section
/-! DEFINITION. Machine/Flags.lean: the control bits. The block has no condition codes and no status
flags (10_state.md R16); its only flags are the two fields of `CTRL` (10_state.md R17). -/

namespace Sys2Proof.Machine

/-- The notional register `CTRL`: `INT_EN` is bit 0, `ACT_RPT` is bit 1. No operation reads it as a
word (10_state.md R17, 92_eei_decisions.md D19). -/
def State.ctrl (s : State) : BitVec 2 := BitVec.ofBool s.actRpt ++ BitVec.ofBool s.intEn

/-- `INT_EN <- v`. -/
def State.setIntEn (s : State) (v : Bool) : State := { s with intEn := v }

/-- `ACT_RPT <- v`. -/
def State.setActRpt (s : State) (v : Bool) : State := { s with actRpt := v }

/-- The reporting-gate output: the level of `ACT_RPT` (30_encoding.md R50). -/
def State.reportingGate (s : State) : Bool := s.actRpt

end Sys2Proof.Machine
end

