-- ==== Sys2Proof/Machine/Control.lean ====
section
/-! DEFINITION. Machine/Control.lean: TGLIRQ, TGLRPT and UNREC (43_control.md). -/

namespace Sys2Proof.Machine

/-- TGLIRQ: flips `INT_EN`, drives the enable output for the four encoder pins and responds with the
new value; it does not sample the pins (43_control.md R100). -/
def execTglirq (s : State) : Host.Outcome State Fault Refusal :=
  .next (((s.setIntEn (!s.intEn)).driveEnables (!s.intEn)).respond (.bit (!s.intEn)))

/-- TGLRPT: flips `ACT_RPT`; no result (43_control.md R101). -/
def execTglrpt (s : State) : Host.Outcome State Fault Refusal :=
  .next (s.setActRpt (!s.actRpt))

/-- UNREC b: reads nothing, writes nothing, no result (43_control.md R102). -/
def execUnrec (_b : Byte) (s : State) : Host.Outcome State Fault Refusal :=
  .next s

end Sys2Proof.Machine
end

