-- ==== Sys2Proof/Machine/PositionAccess.lean ====
section
/-! DEFINITION. Machine/PositionAccess.lean: RDPOS, RSTPOS and ADDPOS (42_position_access.md). They
behave the same whatever the control bits hold (R94). -/

namespace Sys2Proof.Machine

/-- RDPOS n: responds with the position, little-endian, and writes nothing (42_position_access.md R90). -/
def execRdpos (c : Chan) (s : State) : Host.Outcome State Fault Refusal :=
  .next (s.respond (.bytes (le32 (s.memRead c))))

/-- RSTPOS n: `POS[n] <- 0`; no result (42_position_access.md R91). -/
def execRstpos (c : Chan) (s : State) : Host.Outcome State Fault Refusal :=
  .next (s.memWrite c 0)

/-- ADDPOS n, imm: `POS[n] <- add32(POS[n], imm)`, one read-modify-write; no result
(42_position_access.md R92). -/
def execAddpos (c : Chan) (imm : Position) (s : State) : Host.Outcome State Fault Refusal :=
  .next (s.memWrite c (add32 (s.memRead c) imm))

end Sys2Proof.Machine
end

