-- ==== Sys2Proof/Machine/Operands.lean ====
section
/-! DEFINITION. Machine/Operands.lean: how EDGE finds its operands: the registration table REG
(10_state.md R20), ROUTE (41_interrupt_router.md R80) and the sampling of a channel's two pins
(20_memory.md R45). The channel operand of the host operations is decoded in Decode.lean. -/

namespace Sys2Proof.Machine

/-- The registration table `REG`: exactly four entries, `PIN_A[c] -> (c, A)` and
`PIN_B[c] -> (c, B)` (10_state.md R20). -/
def regEntry (cfg : Config) (g : PinId) : Option (Chan × Role) :=
  if g = cfg.pinA .one then some (.one, .a)
  else if g = cfg.pinB .one then some (.one, .b)
  else if g = cfg.pinA .two then some (.two, .a)
  else if g = cfg.pinB .two then some (.two, .b)
  else none

/-- `ROUTE(g)`: the owning channel, or none; the role is not part of the result
(41_interrupt_router.md R80). -/
def route (cfg : Config) (g : PinId) : Option Chan := (regEntry cfg g).map Prod.fst

/-- The levels of a channel's two pins at this one instant (20_memory.md R45). -/
def State.sample (s : State) (c : Chan) : Bool × Bool :=
  (s.pin (s.config.pinA c), s.pin (s.config.pinB c))

/-- When an EDGE step exists: for an encoder pin only while `INT_EN` = 1, for any other pin always
(41_interrupt_router.md R85). -/
def State.edgeEnabled (s : State) (g : PinId) : Bool := s.intEn || (route s.config g).isNone

end Sys2Proof.Machine
end

