-- ==== Sys2Proof/Machine/Quadrature.lean ====
section
/-! DEFINITION. Machine/Quadrature.lean: the transition function DIR, its lookup table, and UPDATE
(40_quadrature_decode.md). -/

namespace Sys2Proof.Machine

/-- The result of DIR, one of -1, 0, +1 (40_quadrature_decode.md R70). -/
inductive Direction where
  | down
  | hold
  | up
  deriving DecidableEq, Repr

/-- The integer a direction stands for. -/
def Direction.toInt : Direction → Int
  | .down => -1
  | .hold => 0
  | .up => 1

/-- `sext_32(d)`: 0xFFFFFFFF, 0 or 1 (40_quadrature_decode.md R73). -/
def Direction.addend : Direction → Position
  | .down => 0xFFFFFFFF
  | .hold => 0
  | .up => 1

/-- `DIR(la, lb, a, b)`; the test on A comes first (40_quadrature_decode.md R70; log entry 9). -/
def dir (la lb a b : Bool) : Direction :=
  if a != la then
    if b != a then .up else .down
  else if b != lb then
    if a == b then .up else .down
  else .hold

/-- The index `{la, lb, a, b}` of the lookup table, `la` in bit 3 (40_quadrature_decode.md R71). -/
def tableIndex (la lb a b : Bool) : Nat :=
  8 * la.toNat + 4 * lb.toNat + 2 * a.toNat + b.toNat

/-- The 16 rows of the transition table, row 0 first (40_quadrature_decode.md R71). -/
def dirTable : List Direction :=
  [.hold, .down, .up, .down,
   .up, .hold, .up, .down,
   .down, .up, .hold, .up,
   .down, .up, .down, .hold]

/-- `UPDATE(c, a, b)`: reads the old history, adds the direction and records the levels, in one
step; the history write is unconditional (40_quadrature_decode.md R73, R77). -/
def State.update (s : State) (c : Chan) (a b : Bool) : State :=
  s.setChan c
    { pos := add32 (s.chan c).pos (dir (s.chan c).lastA (s.chan c).lastB a b).addend
      lastA := a
      lastB := b }

end Sys2Proof.Machine
end

