-- ==== Sys2Proof/Machine/Router.lean ====
section
/-! DEFINITION. Machine/Router.lean: EDGE, the operation of the interrupt context
(41_interrupt_router.md). -/

namespace Sys2Proof.Machine

/-- The service of one notification of channel `c`: entry, sampling, UPDATE, return, as one step
(41_interrupt_router.md R81, 60_exceptions.md R127, R128). -/
def State.serve (s : State) (c : Chan) : State :=
  let e := s.interruptEntry
  (e.update c (e.sample c).1 (e.sample c).2).interruptReturn

/-- EDGE g, k: routes the notification and serves it; an unknown pin is a no-op (R82), and neither
the role of `g` nor `k` enters the computation (R84). With `INT_EN` = 0 the event port takes no event
for an encoder pin (R85): the notification is not delivered and nothing happens (log entry 5). -/
def execEdge (g : PinId) (_k : EdgeKind) (s : State) : Host.Outcome State Fault Refusal :=
  match route s.config g with
  | none => .next s
  | some c => if s.edgeEnabled g then .next (s.serve c) else .next s

end Sys2Proof.Machine
end

