-- ==== Sys2Proof/Machine/Dispatch.lean ====
section
/-! DEFINITION. Machine/Dispatch.lean: which meaning each operation has. -/

namespace Sys2Proof.Machine

def exec (i : Instr) (s : State) : Host.Outcome State Fault Refusal :=
  match i with
  | .rdpos c => Sys2Proof.Machine.execRdpos c s
  | .rstpos c => Sys2Proof.Machine.execRstpos c s
  | .addpos c imm => Sys2Proof.Machine.execAddpos c imm s
  | .tglirq => Sys2Proof.Machine.execTglirq s
  | .tglrpt => Sys2Proof.Machine.execTglrpt s
  | .unrec b => Sys2Proof.Machine.execUnrec b s
  | .edge g k => Sys2Proof.Machine.execEdge g k s

end Sys2Proof.Machine
end

