-- ==== Sys2Proof/Machine/Fetch.lean ====
section
/-! DEFINITION. Machine/Fetch.lean: what the next arrival brings: an operation to run, or a step of
the environment alone. The block has no program counter: arrival decides what runs next
(10_state.md R15). -/

namespace Sys2Proof.Machine

/-- What the next arrival amounts to. -/
inductive Fetched where
  /-- No operation runs: nothing arrived, the environment moved, the block was reset, or the host
  port goes on waiting for bytes. The state after it. -/
  | quiet (t : State)
  /-- An operation runs, in this state (the arrival and its bytes taken). -/
  | run (i : Instr) (t : State)
  deriving DecidableEq, Repr

/-- A byte on the host port: it completes an operation, or the port waits (30_encoding.md R54, R57). -/
def State.receiveByte (s : State) (b : Byte) : Fetched :=
  match decodeHost (s.hostRx ++ [b]) with
  | .ok (i, left) => .run i { s with hostRx := left }
  | .error _ => .quiet { s with hostRx := s.hostRx ++ [b] }

/-- One arrival (30_encoding.md R50). -/
def State.receive (s : State) : Arrival → Fetched
  | .hostByte b => s.receiveByte b
  | .event w => .run (decodeEvent w) s
  | .pin g v => .quiet (s.setPin g v)
  | .reset => .quiet s.restart

/-- Takes the next arrival. With none the block idles: the foreground "blocks indefinitely on the
next input byte" (70_reset_and_hazards.md R162). -/
def State.fetch (s : State) : Fetched :=
  match s.arrivals with
  | [] => .quiet s
  | a :: rest => { s with arrivals := rest }.receive a

/-- The operation that the next step runs, if it runs one. -/
def State.nextInstr (s : State) : Option Instr :=
  match s.fetch with
  | .quiet _ => none
  | .run i _ => some i

/-- The state with one transaction about to complete: of a host operation all bytes but the last
have arrived and the last is the next arrival; an event word is the next arrival (log entry 6). -/
def State.offer (s : State) : Transaction → State
  | .event w => { s with arrivals := .event w :: s.arrivals }
  | .host bs =>
    match bs.getLast? with
    | none => s
    | some b => { s with hostRx := bs.dropLast, arrivals := .hostByte b :: s.arrivals }

end Sys2Proof.Machine
end

