-- ==== Sys2Proof/Machine/Step.lean ====
section
/-! DEFINITION. Machine/Step.lean: one step takes one arrival and runs the operation it completes. -/

namespace Sys2Proof.Machine

/-- One atomic step (00_scope.md R6; 20_memory.md R39). -/
def step (s : State) : Host.Outcome State Fault Refusal :=
  match s.fetch with
  | .quiet t => .next t
  | .run i t => exec i t

/-- `s` with the table word `w` as the transaction that the very next step completes (log entry 6). -/
def State.withFetchWord (s : State) (nbits w : Nat) : State := s.offer (tableTransaction nbits w)

end Sys2Proof.Machine
end

