-- ==== Sys2Proof/Machine/Commands.lean ====
section
/-! DEFINITION. Machine/Commands.lean: the commands of the CommandDispatcher as sequences of block
operations (30_encoding.md R61, 43_control.md R104). The dispatcher itself, its byte codes `CMD_*`
and its ack bytes are out of scope (00_scope.md section 2); a dispatcher in its Ready state is meant. -/

namespace Sys2Proof.Machine

/-- The dispatcher's commands (43_control.md R104; 30_encoding.md R61). -/
inductive Command where
  | init
  | returnEncoders
  | returnEncoder (c : Chan)
  | resetEncoders
  | toggleInterrupts
  | returnRpm
  | toggleActiveReporting
  | injectOffset (c : Chan) (offset : Position)
  | unrecognized (b : Byte)
  deriving DecidableEq, Repr

/-- The block operations of a command, in order; channel 1 comes first (43_control.md R104). The
initialization byte issues none, and of return-rpm everything after the two reads is outside the
block (30_encoding.md R61). -/
def Command.expand : Command → List Instr
  | .init => []
  | .returnEncoders => [.rdpos .one, .rdpos .two]
  | .returnEncoder c => [.rdpos c]
  | .resetEncoders => [.rstpos .one, .rstpos .two]
  | .toggleInterrupts => [.tglirq]
  | .returnRpm => [.rdpos .one, .rdpos .two]
  | .toggleActiveReporting => [.tglrpt]
  | .injectOffset c offset => [.addpos c offset]
  | .unrecognized b => [.unrec b]

/-- The arrivals that bring one operation to its port. -/
def arrivalsOf (i : Instr) : List Arrival :=
  match encode i with
  | .host bs => bs.map .hostByte
  | .event w => [.event w]

/-- The arrivals of a whole command, with nothing of another context in between. -/
def Command.arrivals (k : Command) : List Arrival := k.expand.flatMap arrivalsOf

/-- The binary response of a command that returns positions: the results of its reads concatenated,
channel 1 then channel 2 (20_memory.md R32). -/
def responseBytes (rs : List HostResult) : List Byte :=
  rs.flatMap fun r =>
    match r with
    | .bytes bs => bs
    | .bit _ => []

end Sys2Proof.Machine
end

