-- ==== Sys2Proof/Safety.lean ====
section
/-! DEFINITION. Safety.lean: the terms claims about QDEC are stated in: what a frame leaves alone, the
well-formed states, runs, the true motion of a pin pair, and `NoMissedEdge` (60_exceptions.md R130). -/

namespace Sys2Proof.Machine

/-- Everything of the model but channel `c` is the same: the other channel, the control bits, the
ports, the pins, the configuration and what is still to arrive. -/
def SameButChannel (c : Chan) (s t : State) : Prop :=
  (∀ d, d ≠ c → t.chan d = s.chan d) ∧ t.intEn = s.intEn ∧ t.actRpt = s.actRpt ∧
    t.hostRx = s.hostRx ∧ t.results = s.results ∧ t.enableCalls = s.enableCalls ∧
    t.pins = s.pins ∧ t.config = s.config ∧ t.arrivals = s.arrivals

/-- Everything but `POS[c]` is the same: also the history of channel `c`. -/
def SameButPosition (c : Chan) (s t : State) : Prop :=
  SameButChannel c s t ∧ t.history c = s.history c

/-- The host port holds nothing, or an ADDPOS opcode byte and fewer than its four operand bytes
(30_encoding.md R54, R57). -/
def hostRxWf : List Byte → Bool
  | [] => true
  | b0 :: rest => inGroup b0 opcAddpos && decide (rest.length < 4)

/-- A result is four bytes or one bit (30_encoding.md R50). -/
def HostResult.wf : HostResult → Bool
  | .bytes bs => bs.length == 4
  | .bit _ => true

/-- An enable call is for an encoder pin and asks for both edge kinds (43_control.md R100). -/
def EnableCall.wf (cfg : Config) (e : EnableCall) : Bool :=
  (route cfg e.pin).isSome && e.rising && e.falling

/-- The well-formed states: the pins in canonical form, the host port idle or waiting, results of a
port's width, and enable calls for encoder pins, four at a time. -/
def State.wf (s : State) : Bool :=
  pinsWf s.pins && hostRxWf s.hostRx && s.results.all HostResult.wf &&
    s.enableCalls.all (EnableCall.wf s.config) && s.enableCalls.length % 4 == 0

/-- The state after `n` steps. No step of this machine stops, so this is the run itself. -/
def after (n : Nat) (s : State) : State :=
  match Host.Core.run Sys2Proof.core n s with
  | .next t => t
  | .fault _ => s
  | .refused _ => s

/-- An event or a pin change: an arrival that neither brings a host byte nor resets the block. -/
def Arrival.notHost : Arrival → Bool
  | .hostByte _ => false
  | .event _ => true
  | .pin _ _ => true
  | .reset => false

/-- The next step is an EDGE for channel `c` that is delivered (41_interrupt_router.md R81, R85). -/
def State.servesNext (s : State) (c : Chan) : Bool :=
  match s.nextInstr with
  | some (.edge g _) => s.intEn && decide (route s.config g = some c)
  | _ => false

/-- The next step is an environment step that changes the level of `PIN_A[c]` or `PIN_B[c]`. -/
def State.movesNext (s : State) (c : Chan) : Bool := (after 1 s).sample c != s.sample c

/-- The next step sets `POS[c]` without regard to its value: RSTPOS c, or the reset input. -/
def State.clearsNext (s : State) (c : Chan) : Bool :=
  s.nextInstr == some (.rstpos c) || s.arrivals.head? == some .reset

/-- The forward order of the pin states `(a, b)`: 00, 10, 11, 01, 00 (40_quadrature_decode.md R72). -/
def forwardNext : Bool × Bool → Bool × Bool
  | (false, false) => (true, false)
  | (true, false) => (true, true)
  | (true, true) => (false, true)
  | (false, true) => (false, false)

/-- A valid transition changes exactly one of the two levels (00_scope.md section 6). -/
def validTransition (p q : Bool × Bool) : Bool := (p.1 != q.1) != (p.2 != q.2)

/-- The true motion of a pin pair: +1 for a forward transition, -1 for a reverse one, else 0. -/
def motion (p q : Bool × Bool) : Int :=
  if q = forwardNext p then 1 else if p = forwardNext q then -1 else 0

/-- The sum of `f 0`, …, `f (n - 1)`. -/
def sumTo (n : Nat) (f : Nat → Int) : Int := ((List.range n).map f).sum

/-- Forward transitions of channel `c`'s pins in the first `n` steps minus the reverse ones. -/
def motionOver (c : Chan) (n : Nat) (s : State) : Int :=
  sumTo n fun k => motion ((after k s).sample c) ((after (k + 1) s).sample c)

/-- The operand of the next step if it is ADDPOS c, else 0. -/
def State.offsetNext (s : State) (c : Chan) : Int :=
  match s.nextInstr with
  | some (.addpos d imm) => if d = c then imm.toInt else 0
  | _ => 0

/-- The direction the next step counts on channel `c`: `DIR` of the history and the pins if it is a
delivered EDGE for `c`, else 0. -/
def State.countNext (s : State) (c : Chan) : Int :=
  if s.servesNext c then
    (dir (s.history c).1 (s.history c).2 (s.sample c).1 (s.sample c).2).toInt
  else 0

/-- `NoMissedEdge(c)` on the segment of `n` steps from `s` (60_exceptions.md R130): (i) the history
equals the pins at the start; (ii) `INT_EN` = 1 at every state; (iii) after every change of the pair
there is an EDGE step for `c` before the next change and before the end of the segment. -/
def NoMissedEdge (c : Chan) (n : Nat) (s : State) : Prop :=
  s.history c = s.sample c ∧
  (∀ k, k ≤ n → (after k s).intEn = true) ∧
  (∀ k, k < n → (after k s).movesNext c = true →
    ∃ j, k < j ∧ j < n ∧ (after j s).servesNext c = true ∧
      ∀ m, k < m → m < j → (after m s).movesNext c = false)

/-- The sum of the directions that UPDATEs with these sampled levels count, starting from a history:
each depends only on the pair recorded before it and the pair it sampled (40_quadrature_decode.md R78). -/
def dirSum : Bool × Bool → List (Bool × Bool) → Int
  | _, [] => 0
  | (la, lb), (a, b) :: rest => (dir la lb a b).toInt + dirSum (a, b) rest

/-- A sequence of UPDATEs of channel `c` with the given samples. -/
def State.updates (s : State) (c : Chan) (samples : List (Bool × Bool)) : State :=
  samples.foldl (fun t p => t.update c p.1 p.2) s

/-- The operations of a list run one after the other; nothing where one stops (none does). -/
def execAll : List Instr → State → Option State
  | [], s => some s
  | i :: is, s =>
    match exec i s with
    | .next t => execAll is t
    | .fault _ => none
    | .refused _ => none

/-- Byte `k` of a value, counted from the least significant (20_memory.md R32). -/
def byteOf (v : Position) (k : Nat) : Byte := BitVec.ofNat 8 (v.toNat / 256 ^ k)

/-- The channel an operation acts on, if it acts on one (92_eei_decisions.md D9). -/
def instrChannel (cfg : Config) : Instr → Option Chan
  | .rdpos c => some c
  | .rstpos c => some c
  | .addpos c _ => some c
  | .tglirq => none
  | .tglrpt => none
  | .unrec _ => none
  | .edge g _ => route cfg g

/-- A pin that no channel owns (41_interrupt_router.md R82). -/
def UnknownPin (cfg : Config) (g : PinId) : Prop := ∀ c, g ≠ cfg.pinA c ∧ g ≠ cfg.pinB c

/-- The next arrival is the reset input. -/
def State.resetNext (s : State) : Prop := s.arrivals.head? = some .reset

/-- A dispatcher command whose operands are ones it can carry: an unrecognized byte is unassigned. -/
def Command.wf (k : Command) : Bool := k.expand.all Instr.wf

end Sys2Proof.Machine
end

