-- ==== Sys2Proof/Certificates/Slice0/Obligations.lean ====
section
/-! DEFINITION. Certificates/Slice0/Obligations.lean: the statements for the provers, in the order of
spec/'s files. Each docstring names the rule it formalises; a clause that rests on a choice of the
model names the log entry. -/

open Sys2Proof Sys2Proof.Machine

/-! ## Scope, configuration, state and reset -/

/-- R4: a configuration is taken only together with the proof of its check: the check accepts exactly
the four pairwise distinct pins with a positive `PPR`, and every configuration's pins are distinct. -/
def Obligations.ConfigurationCheckIsPairwiseDistinct : Prop :=
  (∀ (p : PinAssignment) (n : Nat),
    (∃ cfg, Config.check p n = some cfg ∧ cfg.pins = p ∧ cfg.ppr = n) ↔
      ([p.a1, p.b1, p.a2, p.b2].Nodup ∧ 0 < n)) ∧
  (∀ cfg : Config, [cfg.pinA .one, cfg.pinB .one, cfg.pinA .two, cfg.pinB .two].Nodup)

/-- R3: the configuration is "fixed at startup and never changes afterwards". -/
def Obligations.ConfigurationNeverChanges : Prop :=
  ∀ (n : Nat) (s : State), (after n s).config = s.config

/-- R120, R7: every operation is total in every state, and no run of steps stops. -/
def Obligations.NoOperationFaultsAndNoRunStops : Prop :=
  (∀ (i : Instr) (s : State), ∃ t, exec i s = .next t) ∧
  (∀ (n : Nat) (s : State), ∃ t, Host.Core.run Sys2Proof.core n s = .next t ∧ after n s = t)

/-- R12, at the level of one step: only a delivered EDGE for the channel (or the reset input) changes
a channel's history, and it records the sampled pins; only that, RSTPOS c, ADDPOS c or the reset
input changes `POS[c]`. -/
def Obligations.ChannelIsWrittenOnlyByItsWriters : Prop :=
  ∀ (s t : State) (c : Chan), step s = .next t →
    (t.history c ≠ s.history c →
      (s.servesNext c = true ∧ t.history c = s.sample c) ∨ s.resetNext) ∧
    (t.memRead c ≠ s.memRead c →
      s.servesNext c = true ∨ s.nextInstr = some (.rstpos c) ∨
        (∃ imm, s.nextInstr = some (.addpos c imm)) ∨ s.resetNext)

/-- R13: one UPDATE changes `sint(POS[c])` by exactly -1, 0 or +1 modulo the wrap, by ±1 on a valid
transition, and by no wrap at all away from the two ends. -/
def Obligations.UpdateMovesPositionByAtMostOne : Prop :=
  ∀ (s : State) (c : Chan) (a b : Bool), ∃ d : Int,
    (d = -1 ∨ d = 0 ∨ d = 1) ∧
    ((s.update c a b).memRead c).toInt = ((s.memRead c).toInt + d).bmod (2 ^ 32) ∧
    (validTransition (s.history c) (a, b) = true → d ≠ 0) ∧
    (-2147483648 < (s.memRead c).toInt → (s.memRead c).toInt < 2147483647 →
      ((s.update c a b).memRead c).toInt = (s.memRead c).toInt + d)

/-- R14: an operation on channel c neither reads nor writes the other channel: that channel keeps its
value, and with any other value there the operation does the same. -/
def Obligations.ChannelsAreIndependent : Prop :=
  ∀ (i : Instr) (s t : State) (c d : Chan) (x : Channel),
    instrChannel s.config i = some c → d ≠ c → exec i s = .next t →
      t.chan d = s.chan d ∧ exec i (s.setChan d x) = .next (t.setChan d x)

/-- R17, R18, R123: in one step only TGLIRQ (or the reset input, which clears it) changes `INT_EN`,
and only TGLRPT (or the reset input) changes `ACT_RPT`. -/
def Obligations.ControlBitsAreWrittenOnlyByTheirToggles : Prop :=
  ∀ s t : State, step s = .next t →
    (t.intEn ≠ s.intEn → s.nextInstr = some .tglirq ∨ (s.resetNext ∧ t.intEn = false)) ∧
    (t.actRpt ≠ s.actRpt → s.nextInstr = some .tglrpt ∨ (s.resetNext ∧ t.actRpt = false))

/-- R24: after reset every piece of state of the block is zero; from any state the reset input leaves
it so, whatever the pins hold, and changes neither pins nor configuration. -/
def Obligations.ResetLeavesEveryBitZero : Prop :=
  (∀ c, State.reset.memRead c = 0 ∧ State.reset.history c = (false, false)) ∧
  State.reset.intEn = false ∧ State.reset.actRpt = false ∧
  (∀ (s : State) (rest : List Arrival), s.arrivals = .reset :: rest →
    ∃ t, step s = .next t ∧ (∀ c, t.memRead c = 0 ∧ t.history c = (false, false)) ∧
      t.intEn = false ∧ t.actRpt = false ∧ t.pins = s.pins ∧
      t.config = s.config ∧ t.arrivals = rest)

/-- The model's reading of R150 (log entry 11): "no operation in progress survives" a reset, so the
bytes of an ADDPOS that was waiting are gone, and the byte after the reset is a first byte. -/
def Obligations.ResetDiscardsTheWaitingBytes : Prop :=
  State.reset.hostRx = [] ∧
  ∀ (s : State) (rest : List Arrival), s.arrivals = .reset :: rest →
    ∃ t, step s = .next t ∧ t.hostRx = [] ∧
      ∀ b later i left, rest = .hostByte b :: later → decodeHost [b] = .ok (i, left) →
        t.nextInstr = some i

/-- The model's choice (log entry 4): the reset input leaves the records of what the ports have
handed out alone. -/
def Obligations.ResetKeepsThePortRecords : Prop :=
  ∀ (s : State) (rest : List Arrival), s.arrivals = .reset :: rest →
    ∃ t, step s = .next t ∧ t.results = s.results ∧ t.enableCalls = s.enableCalls

/-! ## Ports and encodings -/

/-- R58: the complete map of the first byte; the operand of ADDPOS stands after its opcode byte; on
the event port every word is EDGE. -/
def Obligations.FirstByteMapIsComplete : Prop :=
  (∀ w : EventWord, ∃ g k, decodeEvent w = .edge g k) ∧
  ∀ rest : List Byte,
    decodeHost (0x10 :: rest) = .ok (.rdpos .one, rest) ∧
    decodeHost (0x11 :: rest) = .ok (.rdpos .two, rest) ∧
    decodeHost (0x20 :: rest) = .ok (.rstpos .one, rest) ∧
    decodeHost (0x21 :: rest) = .ok (.rstpos .two, rest) ∧
    (∀ imm, decodeHost (0x30 :: (le32 imm ++ rest)) = .ok (.addpos .one imm, rest)) ∧
    (∀ imm, decodeHost (0x31 :: (le32 imm ++ rest)) = .ok (.addpos .two imm, rest)) ∧
    decodeHost (0x40 :: rest) = .ok (.tglirq, rest) ∧
    decodeHost (0x50 :: rest) = .ok (.tglrpt, rest) ∧
    (∀ b : Byte, b ∉ ([0x10, 0x11, 0x20, 0x21, 0x30, 0x31, 0x40, 0x50] : List Byte) →
      decodeHost (b :: rest) = .ok (.unrec b, rest))

/-- R54, R57: the first byte decides the length, 5 bytes for 0x30 and 0x31 and 1 byte otherwise; the
port has no operation exactly while those bytes have not all arrived. -/
def Obligations.FirstByteDecidesTheLength : Prop :=
  ∀ (b0 : Byte) (rest : List Byte),
    (∀ i left, decodeHost (b0 :: rest) = .ok (i, left) →
      left = (b0 :: rest).drop (if b0 = 0x30 ∨ b0 = 0x31 then 5 else 1)) ∧
    ((∃ e, decodeHost (b0 :: rest) = .error e) ↔
      (b0 :: rest).length < if b0 = 0x30 ∨ b0 = 0x31 then 5 else 1)

/-- R55, R33: the operand is the four bytes after the opcode byte, least significant first, whatever
their values; they are never decoded as operations. -/
def Obligations.AddposOperandIsFourLittleEndianBytes : Prop :=
  ∀ (b1 b2 b3 b4 : Byte) (rest : List Byte), ∃ imm : Position,
    imm.toNat = b1.toNat + 256 * b2.toNat + 65536 * b3.toNat + 16777216 * b4.toNat ∧
    decodeHost (0x30 :: b1 :: b2 :: b3 :: b4 :: rest) = .ok (.addpos .one imm, rest) ∧
    decodeHost (0x31 :: b1 :: b2 :: b3 :: b4 :: rest) = .ok (.addpos .two imm, rest)

/-- R53: every event word is an EDGE; `gpio` is bits 7:0, bit 9 is RISE, bit 8 is FALL, and bits
15:10 are ignored. -/
def Obligations.EventWordFieldsAreRead : Prop :=
  (∀ w : EventWord, decodeEvent w =
    .edge (BitVec.ofNat 8 w.toNat)
      (if w.toNat.testBit 9 then (if w.toNat.testBit 8 then .both else .rise)
       else (if w.toNat.testBit 8 then .fall else .none))) ∧
  (∀ w w' : EventWord, w.toNat % 1024 = w'.toNat % 1024 → decodeEvent w = decodeEvent w')

/-- Decode and encode agree: every well-formed operation, with every operand, is read back from its
encoding, on the host port with whatever bytes follow. -/
def Obligations.DecodeReadsBackEveryEncoding : Prop :=
  ∀ i : Instr, i.wf = true →
    decode (encode i) = .ok i ∧
    (∀ bs rest, encode i = .host bs → decodeHost (bs ++ rest) = .ok (i, rest))

/-- The other direction: what the host port decodes is well formed and its bytes are the encoding of
it; an event word is the encoding of its EDGE up to the six ignored bits. -/
def Obligations.EveryDecodedTransactionIsAnEncoding : Prop :=
  (∀ (bs rest : List Byte) (i : Instr), decodeHost bs = .ok (i, rest) →
    i.wf = true ∧ ∃ used, encode i = .host used ∧ bs = used ++ rest) ∧
  (∀ w : EventWord, (decodeEvent w).wf = true ∧
    encode (decodeEvent w) = .event (BitVec.ofNat 16 (w.toNat % 1024)))

/-- Words written out from the rows of the opcode table decode to their operations. -/
def Obligations.TableWordsDecodeToTheirRows : Prop :=
  decodeTableWord 8 0x11 = some (.rdpos .two) ∧
  decodeTableWord 8 0x20 = some (.rstpos .one) ∧
  decodeTableWord 40 0xFFFFFFFB30 = some (.addpos .one (-5)) ∧
  decodeTableWord 8 0x40 = some .tglirq ∧
  decodeTableWord 8 0x50 = some .tglrpt ∧
  decodeTableWord 8 0x12 = some (.unrec 0x12) ∧
  decodeTableWord 16 0xFD05 = some (.edge 5 .fall)

/-- A step takes one arrival and runs the operation that arrival completes, in the state with the
arrival and its bytes taken; otherwise it idles, waits, moves a pin or resets. The arrivals as a list
are log entry 2, the bytes waiting in `hostRx` log entry 11. -/
def Obligations.StepRunsTheDecodedOperation : Prop :=
  ∀ s : State,
    (s.arrivals = [] → step s = .next s) ∧
    (∀ w rest, s.arrivals = .event w :: rest →
      step s = exec (decodeEvent w) { s with arrivals := rest }) ∧
    (∀ b rest i left, s.arrivals = .hostByte b :: rest →
      decodeHost (s.hostRx ++ [b]) = .ok (i, left) →
      step s = exec i { s with hostRx := left, arrivals := rest }) ∧
    (∀ b rest e, s.arrivals = .hostByte b :: rest → decodeHost (s.hostRx ++ [b]) = .error e →
      step s = .next { s with hostRx := s.hostRx ++ [b], arrivals := rest }) ∧
    (∀ g v rest, s.arrivals = .pin g v :: rest →
      step s = .next ({ s with arrivals := rest }.setPin g v)) ∧
    (∀ rest, s.arrivals = .reset :: rest → step s = .next { s with arrivals := rest }.restart)

/-- R57, with the bytes arriving one at a time and waiting in `hostRx`, and events and pin changes
between them, as log entry 11 reads it: an ADDPOS whose bytes have not all arrived does not execute
and changes nothing; events and pin changes go on as usual meanwhile, with the very effect they have
when no byte waits, and leave the bytes alone; the fifth byte runs it. -/
def Obligations.AddposWaitsForItsOperandBytes : Prop :=
  ∀ s : State, hostRxWf s.hostRx = true → s.hostRx ≠ [] →
    (∀ b rest, s.arrivals = .hostByte b :: rest → s.hostRx.length < 4 →
      step s = .next { s with hostRx := s.hostRx ++ [b], arrivals := rest }) ∧
    (∀ mid rest, s.arrivals = mid ++ rest → mid.all Arrival.notHost = true →
      (after mid.length s).hostRx = s.hostRx ∧ (after mid.length s).arrivals = rest ∧
      { after mid.length s with hostRx := [] } = after mid.length { s with hostRx := [] }) ∧
    (∀ b rest, s.arrivals = .hostByte b :: rest → s.hostRx.length = 4 →
      ∃ c imm t, s.hostRx ++ [b] = (0x30 + chanBit c) :: le32 imm ∧
        exec (.addpos c imm) { s with hostRx := [], arrivals := rest } = .next t ∧ step s = .next t)

/-- The environment's step `PIN g = v` sets that pin's level and leaves every other level, the block
and the ports alone (30_encoding.md section 6; the block never writes a pin). -/
def Obligations.PinDirectiveSetsOnePin : Prop :=
  ∀ (s : State) (g : PinId) (v : Bool) (rest : List Arrival), s.arrivals = .pin g v :: rest →
    ∃ t, step s = .next t ∧ (∀ p, t.pin p = if p = g then v else s.pin p) ∧
      t = { s with pins := t.pins, arrivals := rest }

/-- The canonical form of the pin levels (log entry 3): equal levels are equal data. -/
def Obligations.EqualPinLevelsAreEqualData : Prop :=
  ∀ high high' : List PinId, pinsWf high = true → pinsWf high' = true →
    (∀ p, pinLevel high p = pinLevel high' p) → high = high'

/-! ## The quadrature decode -/

/-- R71: the 16 rows, the three masks and the closed form all give DIR; the masks are disjoint and
together make 0xFFFF. -/
def Obligations.TransitionTableIsDir : Prop :=
  ((0x2A54 : Nat) ||| 0x518A ||| 0x8421 = 0xFFFF ∧ (0x2A54 : Nat) &&& 0x518A = 0 ∧
    (0x2A54 : Nat) &&& 0x8421 = 0 ∧ (0x518A : Nat) &&& 0x8421 = 0) ∧
  ∀ la lb a b : Bool,
    dirTable[tableIndex la lb a b]? = some (dir la lb a b) ∧
    (dir la lb a b = .up ↔ (0x2A54 : Nat).testBit (tableIndex la lb a b) = true) ∧
    (dir la lb a b = .down ↔ (0x518A : Nat).testBit (tableIndex la lb a b) = true) ∧
    (dir la lb a b = .hold ↔ (0x8421 : Nat).testBit (tableIndex la lb a b) = true) ∧
    dir la lb a b =
      (if (a, b) = (la, lb) then .hold
       else if a ≠ la then (if (a ^^ b) = true then .up else .down)
       else (if (a ^^ b) = false then .up else .down))

/-- R72: forward is 00, 10, 11, 01, 00 and counts +1, reverse is the same read backwards and counts
-1, and a full cycle of four states counts 4. -/
def Obligations.ForwardCycleCountsUp : Prop :=
  (forwardNext (false, false) = (true, false) ∧ forwardNext (true, false) = (true, true) ∧
    forwardNext (true, true) = (false, true) ∧ forwardNext (false, true) = (false, false)) ∧
  (∀ p, dir p.1 p.2 (forwardNext p).1 (forwardNext p).2 = .up ∧
    dir (forwardNext p).1 (forwardNext p).2 p.1 p.2 = .down) ∧
  dirSum (false, false) [(true, false), (true, true), (false, true), (false, false)] = 4 ∧
  dirSum (false, false) [(false, true), (true, true), (true, false), (false, false)] = -4

/-- R74: DIR is 0 exactly when neither level differs from the history, and UPDATE then changes
nothing. -/
def Obligations.DuplicateEventChangesNothing : Prop :=
  ∀ (s : State) (c : Chan) (a b : Bool),
    (dir (s.history c).1 (s.history c).2 a b = .hold ↔ (a, b) = s.history c) ∧
    ((a, b) = s.history c → s.update c a b = s)

/-- R75: when both levels differ from the history UPDATE counts one step, +1 where the new levels
differ from each other and -1 where they agree, records them, and writes nothing else. -/
def Obligations.DiagonalTransitionCountsOneStep : Prop :=
  ∀ (s : State) (c : Chan) (a b : Bool), a ≠ (s.history c).1 → b ≠ (s.history c).2 →
    ((s.update c a b).memRead c).toInt =
      ((s.memRead c).toInt + if a = b then -1 else 1).bmod (2 ^ 32) ∧
    (s.update c a b).history c = (a, b) ∧ SameButChannel c s (s.update c a b)

/-- R76: in range UPDATE adds DIR exactly; at the ends it wraps. -/
def Obligations.IncrementWrapsAtTheEnds : Prop :=
  ∀ (s : State) (c : Chan) (a b : Bool),
    ((-2147483648 ≤ (s.memRead c).toInt + (dir (s.history c).1 (s.history c).2 a b).toInt ∧
        (s.memRead c).toInt + (dir (s.history c).1 (s.history c).2 a b).toInt ≤ 2147483647) →
      ((s.update c a b).memRead c).toInt =
        (s.memRead c).toInt + (dir (s.history c).1 (s.history c).2 a b).toInt) ∧
    (dir (s.history c).1 (s.history c).2 a b = .up → s.memRead c = 0x7FFFFFFF →
      (s.update c a b).memRead c = 0x80000000) ∧
    (dir (s.history c).1 (s.history c).2 a b = .down → s.memRead c = 0x80000000 →
      (s.update c a b).memRead c = 0x7FFFFFFF) ∧
    (dir (s.history c).1 (s.history c).2 a b = .down → s.memRead c = 0 →
      (s.update c a b).memRead c = 0xFFFFFFFF)

/-- R77: every UPDATE records the sampled levels, so a second UPDATE with the same levels is a
duplicate. -/
def Obligations.EveryUpdateRecordsTheLevels : Prop :=
  ∀ (s : State) (c : Chan) (a b : Bool),
    (s.update c a b).history c = (a, b) ∧ (s.update c a b).update c a b = s.update c a b

/-- R78: after any sequence of UPDATEs of a channel the position is the start plus the sum of the
directions modulo 2^32, each direction from the pair recorded before and the pair sampled; the last
sample is the history; nothing else changes. -/
def Obligations.UpdatesAddTheNetSum : Prop :=
  ∀ (samples : List (Bool × Bool)) (s : State) (c : Chan),
    (s.updates c samples).memRead c =
      s.memRead c + BitVec.ofInt 32 (dirSum (s.history c) samples) ∧
    (s.updates c samples).history c = samples.getLastD (s.history c) ∧
    SameButChannel c s (s.updates c samples)

/-! ## The interrupt demultiplexer -/

/-- R80: ROUTE finds the channel whose pins contain `g`, and nothing elsewhere. -/
def Obligations.RouteFindsTheOwner : Prop :=
  (∀ (cfg : Config) (g : PinId) (c : Chan),
    route cfg g = some c ↔ (g = cfg.pinA c ∨ g = cfg.pinB c)) ∧
  (∀ (cfg : Config) (g : PinId), route cfg g = none ↔ UnknownPin cfg g) ∧
  route exampleConfig 5 = some .two ∧ route exampleConfig 9 = none

/-- R81: an EDGE for an encoder pin, delivered while `INT_EN` = 1, samples the channel's two pins,
adds DIR of the old history and the sample to the position, records the sample, and writes nothing
else; for any other pin it does nothing; every event word is an EDGE for the pin of its low byte. -/
def Obligations.EdgeUpdatesTheRoutedChannel : Prop :=
  (∀ (s : State) (g : PinId) (k : EdgeKind) (c : Chan), s.intEn = true →
    (g = s.config.pinA c ∨ g = s.config.pinB c) →
    ∃ t, exec (.edge g k) s = .next t ∧
      t.history c = (s.pin (s.config.pinA c), s.pin (s.config.pinB c)) ∧
      (t.memRead c).toInt = ((s.memRead c).toInt +
        (dir (s.history c).1 (s.history c).2 (s.pin (s.config.pinA c))
          (s.pin (s.config.pinB c))).toInt).bmod (2 ^ 32) ∧
      SameButChannel c s t) ∧
  (∀ (s : State) (g : PinId) (k : EdgeKind), UnknownPin s.config g → exec (.edge g k) s = .next s) ∧
  (∀ w : EventWord, decodeEvent w = .edge (BitVec.ofNat 8 w.toNat) (eventKind w))

/-- R82: an event word for a pin no channel owns changes nothing, in any state; it is taken. -/
def Obligations.UnknownPinEventIsANoOp : Prop :=
  ∀ (s : State) (w : EventWord) (rest : List Arrival), s.arrivals = .event w :: rest →
    UnknownPin s.config (BitVec.ofNat 8 w.toNat) → step s = .next { s with arrivals := rest }

/-- The model's reading of R85 (log entry 5): with `INT_EN` = 0 an event for an encoder pin is not
delivered: the machine goes on and no piece of state changes. -/
def Obligations.EdgeWhileDisabledIsNotDelivered : Prop :=
  ∀ (s : State) (g : PinId) (k : EdgeKind), s.intEn = false →
    exec (.edge g k) s = .next s ∧ (s.edgeEnabled g = true ↔ UnknownPin s.config g)

/-- R84: neither the role of the pin nor the edge kind enters the computation, and the order of two
notifications of one channel cannot be observed. -/
def Obligations.PinRoleAndEdgeKindDoNotMatter : Prop :=
  (∀ (s : State) (c : Chan) (k k' : EdgeKind),
    exec (.edge (s.config.pinA c) k) s = exec (.edge (s.config.pinB c) k') s) ∧
  (∀ (s : State) (g g' : PinId) (k k' : EdgeKind) (c : Chan), route s.config g = some c →
    route s.config g' = some c →
    execAll [.edge g k, .edge g' k'] s = execAll [.edge g' k', .edge g k] s)

/-- R126: the order in which any two outstanding notifications are served cannot be observed. -/
def Obligations.NotificationOrderIsUnobservable : Prop :=
  ∀ (s : State) (g g' : PinId) (k k' : EdgeKind), ∃ t,
    execAll [.edge g k, .edge g' k'] s = some t ∧ execAll [.edge g' k', .edge g k] s = some t

/-- R87: `ACT_RPT` has no effect on the positions, the histories, `INT_EN`, whether an EDGE step
exists, or any result: with another value there, every operation but its own toggle does the same. -/
def Obligations.ActiveReportingHasNoEffect : Prop :=
  (∀ (i : Instr) (s t : State) (v : Bool), i ≠ .tglrpt → exec i s = .next t →
    exec i (s.setActRpt v) = .next (t.setActRpt v)) ∧
  (∀ (s : State) (v : Bool) (g : PinId), (s.setActRpt v).edgeEnabled g = s.edgeEnabled g)

/-! ## Position access -/

/-- R90: RDPOS n responds with the four bytes of the position, least significant first, and writes
nothing; its bytes are 0x10 and 0x11. -/
def Obligations.RdposRespondsLittleEndian : Prop :=
  (∀ (c : Chan) (s : State), exec (.rdpos c) s =
    .next { s with results := s.results ++ [.bytes [byteOf (s.memRead c) 0, byteOf (s.memRead c) 1,
      byteOf (s.memRead c) 2, byteOf (s.memRead c) 3]] }) ∧
  decode (.host [0x10]) = .ok (.rdpos .one) ∧ decode (.host [0x11]) = .ok (.rdpos .two)

/-- R91: RSTPOS n zeroes the position and writes nothing else; RDPOS n right after it responds with
zeros, and with one UPDATE in between the position is that step's DIR, judged against the old history. -/
def Obligations.RstposZeroesThePosition : Prop :=
  (∀ (c : Chan) (s : State), ∃ t, exec (.rstpos c) s = .next t ∧ t.memRead c = 0 ∧
    SameButPosition c s t ∧
    exec (.rdpos c) t = .next { t with results := t.results ++ [.bytes [0, 0, 0, 0]] } ∧
    ∀ a b, (t.update c a b).memRead c =
      BitVec.ofInt 32 (dir (s.history c).1 (s.history c).2 a b).toInt) ∧
  decode (.host [0x20]) = .ok (.rstpos .one) ∧ decode (.host [0x21]) = .ok (.rstpos .two)

/-- R92: ADDPOS n, imm adds the signed operand modulo 2^32 and writes nothing else; its encoding is
the opcode byte and then `le32(imm)`. -/
def Obligations.AddposAddsModulo : Prop :=
  (∀ (c : Chan) (imm : Position) (s : State), ∃ t, exec (.addpos c imm) s = .next t ∧
    (t.memRead c).toInt = ((s.memRead c).toInt + imm.toInt).bmod (2 ^ 32) ∧ SameButPosition c s t) ∧
  (∀ imm : Position, decode (.host (0x30 :: le32 imm)) = .ok (.addpos .one imm) ∧
    decode (.host (0x31 :: le32 imm)) = .ok (.addpos .two imm))

/-- R93: the three operations never write a history bit, a control bit or the other channel; RDPOS
writes no state of the block at all. -/
def Obligations.PositionAccessFrame : Prop :=
  ∀ (i : Instr) (n : Chan) (s : State),
    (i = .rdpos n ∨ i = .rstpos n ∨ ∃ imm, i = .addpos n imm) →
    ∃ t, exec i s = .next t ∧ (∀ c, t.history c = s.history c) ∧ t.intEn = s.intEn ∧
      t.actRpt = s.actRpt ∧ (∀ d, d ≠ n → t.chan d = s.chan d) ∧
      (i = .rdpos n → ∀ c, t.chan c = s.chan c)

/-- R94: the three operations do the same whatever `INT_EN` and `ACT_RPT` are. -/
def Obligations.PositionAccessIgnoresTheControlBits : Prop :=
  ∀ (i : Instr) (n : Chan) (s : State) (v w : Bool),
    (i = .rdpos n ∨ i = .rstpos n ∨ ∃ imm, i = .addpos n imm) →
    ∃ t, exec i s = .next t ∧
      exec i ((s.setIntEn v).setActRpt w) = .next ((t.setIntEn v).setActRpt w)

/-- R38: two RDPOS respond with the same value and leave the positions alone; RSTPOS is idempotent. -/
def Obligations.ReadsRepeatAndResetsAreIdempotent : Prop :=
  ∀ (c : Chan) (s : State), ∃ r,
    execAll [.rdpos c] s = some (s.respond r) ∧
    execAll [.rdpos c, .rdpos c] s = some ((s.respond r).respond r) ∧
    execAll [.rstpos c, .rstpos c] s = execAll [.rstpos c] s

/-! ## Control operations and commands -/

/-- R100: TGLIRQ flips `INT_EN`, drives the enable output once for each encoder pin with both edge
kinds, responds with the new bit and writes nothing else; EDGE steps for encoder pins then exist
exactly when the new bit is 1; twice returns to the original bit. -/
def Obligations.TglirqFlipsAndDrivesTheEnables : Prop :=
  (∀ s : State, exec .tglirq s = .next
    { s with
      intEn := !s.intEn
      enableCalls := s.enableCalls ++
        [⟨s.config.pinA .one, true, true, !s.intEn⟩, ⟨s.config.pinB .one, true, true, !s.intEn⟩,
         ⟨s.config.pinA .two, true, true, !s.intEn⟩, ⟨s.config.pinB .two, true, true, !s.intEn⟩]
      results := s.results ++ [.bit (!s.intEn)] }) ∧
  (∀ s t : State, exec .tglirq s = .next t → ∀ c,
    t.edgeEnabled (t.config.pinA c) = !s.intEn ∧ t.edgeEnabled (t.config.pinB c) = !s.intEn) ∧
  (∀ s : State, (execAll [.tglirq, .tglirq] s).map State.intEn = some s.intEn) ∧
  decode (.host [0x40]) = .ok .tglirq

/-- R101: TGLRPT flips `ACT_RPT`, which the reporting gate shows, and writes nothing else; two in a
row restore the bit. -/
def Obligations.TglrptFlipsTheReportingBit : Prop :=
  (∀ s : State, exec .tglrpt s = .next { s with actRpt := !s.actRpt }) ∧
  (∀ s : State, execAll [.tglrpt, .tglrpt] s = some s) ∧
  (∀ s : State, s.reportingGate = s.actRpt) ∧ decode (.host [0x50]) = .ok .tglrpt

/-- R102: UNREC b does nothing and takes exactly one byte, for each of the 248 unassigned bytes. -/
def Obligations.UnrecIsANoOp : Prop :=
  (∀ (b : Byte) (s : State), exec (.unrec b) s = .next s) ∧
  (∀ (b : Byte) (rest : List Byte), Instr.wf (.unrec b) = true →
    decodeHost (b :: rest) = .ok (.unrec b, rest)) ∧
  (∀ b : Byte, Instr.wf (.unrec b) = true ↔
    b ∉ ([0x10, 0x11, 0x20, 0x21, 0x30, 0x31, 0x40, 0x50] : List Byte))

/-- R50: the enable output is driven by TGLIRQ and by no other operation, with the new value of
`INT_EN`; results come from RDPOS and TGLIRQ and from no other operation. That the reset input drives
neither output is the model's choice (log entry 4): the spec is silent on it. -/
def Obligations.OutputsAreDrivenOnlyByTheirOperations : Prop :=
  ∀ s t : State, step s = .next t →
    (t.enableCalls ≠ s.enableCalls → s.nextInstr = some .tglirq ∧
      ∃ calls, t.enableCalls = s.enableCalls ++ calls ∧ calls.length = 4 ∧
        ∀ e ∈ calls, e.enabled = t.intEn) ∧
    (t.results ≠ s.results → (s.nextInstr = some .tglirq ∧ t.results = s.results ++ [.bit t.intEn]) ∨
      ∃ c, s.nextInstr = some (.rdpos c) ∧ t.results = s.results ++ [.bytes (le32 (s.memRead c))])

/-- R104: with nothing of another context in between, the arrivals of a dispatcher command have the
effect of its block operations in order. That the bytes of an operation are arrivals one by one is
log entry 11. -/
def Obligations.CommandRunsItsOperations : Prop :=
  ∀ (k : Command) (s : State) (rest : List Arrival), k.wf = true → s.hostRx = [] →
    s.arrivals = k.arrivals ++ rest →
    execAll k.expand { s with arrivals := rest } = some (after k.arrivals.length s)

/-- R41: the two reads of return-encoders are two steps: whatever events and pin changes come in
between, the first result is channel 1 before them and the second is channel 2 after them, and the
response is the first's bytes and then the second's (R32). -/
def Obligations.ReturnEncodersReadsAtTwoInstants : Prop :=
  ∀ (s : State) (mid rest : List Arrival), s.hostRx = [] → mid.all Arrival.notHost = true →
    s.arrivals = .hostByte 0x10 :: (mid ++ .hostByte 0x11 :: rest) →
    (after (mid.length + 2) s).results = s.results ++
      [.bytes (le32 (s.memRead .one)), .bytes (le32 ((after (mid.length + 1) s).memRead .two))] ∧
    responseBytes ((after (mid.length + 2) s).results.drop s.results.length) =
      le32 (s.memRead .one) ++ le32 ((after (mid.length + 1) s).memRead .two) ∧
    (after (mid.length + 2) s).arrivals = rest

/-- R158: the two values of one return-encoders response, read by RDPOS 1 and then RDPOS 2 with only
events and pin changes in between, need not have stood together at any instant from before the first
read to after the second. -/
def Obligations.ReturnEncodersIsNotASnapshot : Prop :=
  ∃ (s : State) (mid : List Arrival) (p q : Position),
    s.hostRx = [] ∧ mid.all Arrival.notHost = true ∧
    s.arrivals = .hostByte 0x10 :: (mid ++ [.hostByte 0x11]) ∧
    (after (mid.length + 2) s).results = s.results ++ [.bytes (le32 p), .bytes (le32 q)] ∧
    ∀ k, k ≤ mid.length + 2 → ¬ ((after k s).memRead .one = p ∧ (after k s).memRead .two = q)

/-- R105: from a state whose positions are 0, as after reset with no edges, the bytes 0x10, 0x11
respond with two 4-byte zero integers. -/
def Obligations.ReturnEncodersAfterNoEdgesIsZero : Prop :=
  ∀ (s : State) (rest : List Arrival), (∀ c, s.memRead c = 0) → s.hostRx = [] →
    s.arrivals = .hostByte 0x10 :: .hostByte 0x11 :: rest →
    (after 2 s).results = s.results ++ [.bytes [0, 0, 0, 0], .bytes [0, 0, 0, 0]]

/-! ## Runs: reset, toggles, hazards, exact counting -/

/-- R151: after reset and until the first TGLIRQ `INT_EN` is 0, no EDGE for an encoder pin is
delivered, and both positions stay 0 unless ADDPOS changes them. -/
def Obligations.NothingCountsBeforeTheFirstToggle : Prop :=
  ∀ (n : Nat) (s : State), s.ch1 = Channel.reset → s.ch2 = Channel.reset → s.intEn = false →
    (∀ k, k < n → (after k s).nextInstr ≠ some .tglirq) →
    (after n s).intEn = false ∧ (∀ c, (after n s).servesNext c = false) ∧
    (∀ c, (after n s).history c = (false, false)) ∧
    (∀ c, (∀ k imm, k < n → (after k s).nextInstr ≠ some (.addpos c imm)) →
      (after n s).memRead c = 0)

/-- R100, over a run without reset: `INT_EN` is its start value flipped once for every TGLIRQ. -/
def Obligations.EnableFollowsTheParityOfToggles : Prop :=
  ∀ (n : Nat) (s : State), (∀ k, k < n → ¬ (after k s).resetNext) →
    (after n s).intEn = (s.intEn ^^
      ((((List.range n).filter fun k => (after k s).nextInstr == some .tglirq).length % 2) == 1))

/-- R154, R85: while `INT_EN` = 0 throughout and no reset comes, no motion of the pins is seen: both
histories stay what they were, and a position changes by no EDGE. -/
def Obligations.DisabledRunKeepsTheHistory : Prop :=
  ∀ (n : Nat) (s : State), (∀ k, k < n → (after k s).intEn = false ∧ ¬ (after k s).resetNext) →
    ∀ c, (after n s).history c = s.history c ∧
      ((∀ k, k < n → ∀ imm, (after k s).nextInstr ≠ some (.rstpos c) ∧
        (after k s).nextInstr ≠ some (.addpos c imm)) → (after n s).memRead c = s.memRead c)

/-- The table of R153: rest state, levels at the first UPDATE, and the offset left in the position,
which is `DIR(0, 0, a, b)` minus the true step. -/
def Obligations.RestStateOffsets : Prop :=
  ∀ row ∈ ([((true, false), (true, false), 1), ((true, false), (true, true), -2),
      ((true, false), (false, false), 1), ((true, true), (true, true), -1),
      ((true, true), (false, true), -2), ((true, true), (true, false), 2),
      ((false, true), (false, true), -1), ((false, true), (false, false), -1),
      ((false, true), (true, true), 0), ((false, false), (false, false), 0),
      ((false, false), (true, false), 0), ((false, false), (false, true), 0)] :
      List ((Bool × Bool) × (Bool × Bool) × Int)),
    (dir false false row.2.1.1 row.2.1.2).toInt - motion row.1 row.2.1 = row.2.2

/-- R78 and R92 over any run: without RSTPOS c and reset, `POS[c]` is its start value plus every
counted direction and every ADDPOS c operand, modulo 2^32: no update is lost between the contexts. -/
def Obligations.PositionIsTheLedgerOfTheRun : Prop :=
  ∀ (c : Chan) (n : Nat) (s : State), (∀ k, k < n → (after k s).clearsNext c = false) →
    (after n s).memRead c = s.memRead c +
      BitVec.ofInt 32 (sumTo n (fun k => (after k s).countNext c) +
        sumTo n (fun k => (after k s).offsetNext c))

/-- R130: where `NoMissedEdge(c)` holds and no RSTPOS c comes, the position moves by the forward
transitions of the pin pair minus the reverse ones plus the ADDPOS c operands, modulo 2^32. -/
def Obligations.CountIsExactWithoutMissedEdges : Prop :=
  ∀ (c : Chan) (n : Nat) (s : State), NoMissedEdge c n s →
    (∀ k, k < n → (after k s).nextInstr ≠ some (.rstpos c)) →
    (after n s).memRead c = s.memRead c +
      BitVec.ofInt 32 (motionOver c n s + sumTo n (fun k => (after k s).offsetNext c)) ∧
    (after n s).history c = (after n s).sample c

/-- R130: where `NoMissedEdge(c)` holds every UPDATE of the channel sees a valid transition or a
duplicate, never a diagonal one. -/
def Obligations.NoMissedEdgeSeesNoDiagonal : Prop :=
  ∀ (c : Chan) (n : Nat) (s : State), NoMissedEdge c n s →
    ∀ k, k < n → (after k s).servesNext c = true →
      validTransition ((after k s).history c) ((after k s).sample c) = true ∨
        (after k s).history c = (after k s).sample c

/-! ## The invariant of every state -/

/-- The reset state is well formed. -/
def Obligations.ResetStateIsWellFormed : Prop := State.reset.wf = true

/-- Every step keeps well-formed states well formed: the pins stay canonical, the host port holds
nothing or a started ADDPOS, results keep their widths, and enable calls are for encoder pins, four
at a time, with both edge kinds. The forms of the fields are the model's (log entries 3, 4 and 11). -/
def Obligations.StepKeepsStatesWellFormed : Prop :=
  ∀ s t : State, s.wf = true → step s = .next t → t.wf = true
end

