-- ==== Sys2Proof/Laws/State.lean ====
section
/-! SUPPORT. Laws/State.lean: one lemma per field per update of State, so that no later proof unfolds
a record update. -/

namespace Sys2Proof.Machine

/-! ## setChan -/

@[simp] theorem State.intEn_setChan (s : State) (c : Chan) (x : Channel) :
    (s.setChan c x).intEn = s.intEn := by cases c <;> rfl

@[simp] theorem State.actRpt_setChan (s : State) (c : Chan) (x : Channel) :
    (s.setChan c x).actRpt = s.actRpt := by cases c <;> rfl

@[simp] theorem State.hostRx_setChan (s : State) (c : Chan) (x : Channel) :
    (s.setChan c x).hostRx = s.hostRx := by cases c <;> rfl

@[simp] theorem State.results_setChan (s : State) (c : Chan) (x : Channel) :
    (s.setChan c x).results = s.results := by cases c <;> rfl

@[simp] theorem State.enableCalls_setChan (s : State) (c : Chan) (x : Channel) :
    (s.setChan c x).enableCalls = s.enableCalls := by cases c <;> rfl

@[simp] theorem State.pins_setChan (s : State) (c : Chan) (x : Channel) :
    (s.setChan c x).pins = s.pins := by cases c <;> rfl

@[simp] theorem State.config_setChan (s : State) (c : Chan) (x : Channel) :
    (s.setChan c x).config = s.config := by cases c <;> rfl

@[simp] theorem State.arrivals_setChan (s : State) (c : Chan) (x : Channel) :
    (s.setChan c x).arrivals = s.arrivals := by cases c <;> rfl

@[simp] theorem State.chan_setChan_same (s : State) (c : Chan) (x : Channel) :
    (s.setChan c x).chan c = x := by cases c <;> rfl

@[simp] theorem State.chan_setChan_other (s : State) (c d : Chan) (x : Channel) (h : d ≠ c) :
    (s.setChan c x).chan d = s.chan d := by cases c <;> cases d <;> first | rfl | exact absurd rfl h

@[simp] theorem State.setChan_setChan_same (s : State) (c : Chan) (x y : Channel) :
    (s.setChan c x).setChan c y = s.setChan c y := by cases c <;> rfl

@[simp] theorem State.setChan_chan (s : State) (c : Chan) : s.setChan c (s.chan c) = s := by
  cases c <;> rfl

theorem State.setChan_comm (s : State) (c d : Chan) (x y : Channel) (h : d ≠ c) :
    (s.setChan c x).setChan d y = (s.setChan d y).setChan c x := by
  cases c <;> cases d <;> first | rfl | exact absurd rfl h

theorem State.ext_chan (s t : State) (hc : ∀ c, s.chan c = t.chan c) (h1 : s.intEn = t.intEn)
    (h2 : s.actRpt = t.actRpt) (h3 : s.hostRx = t.hostRx) (h4 : s.results = t.results)
    (h5 : s.enableCalls = t.enableCalls) (h6 : s.pins = t.pins) (h7 : s.config = t.config)
    (h8 : s.arrivals = t.arrivals) : s = t := by
  have a := hc .one
  have b := hc .two
  cases s
  cases t
  simp_all [State.chan]

/-! ## memWrite -/

@[simp] theorem State.intEn_memWrite (s : State) (c : Chan) (v : Position) :
    (s.memWrite c v).intEn = s.intEn := by simp [State.memWrite]

@[simp] theorem State.actRpt_memWrite (s : State) (c : Chan) (v : Position) :
    (s.memWrite c v).actRpt = s.actRpt := by simp [State.memWrite]

@[simp] theorem State.hostRx_memWrite (s : State) (c : Chan) (v : Position) :
    (s.memWrite c v).hostRx = s.hostRx := by simp [State.memWrite]

@[simp] theorem State.results_memWrite (s : State) (c : Chan) (v : Position) :
    (s.memWrite c v).results = s.results := by simp [State.memWrite]

@[simp] theorem State.enableCalls_memWrite (s : State) (c : Chan) (v : Position) :
    (s.memWrite c v).enableCalls = s.enableCalls := by simp [State.memWrite]

@[simp] theorem State.pins_memWrite (s : State) (c : Chan) (v : Position) :
    (s.memWrite c v).pins = s.pins := by simp [State.memWrite]

@[simp] theorem State.config_memWrite (s : State) (c : Chan) (v : Position) :
    (s.memWrite c v).config = s.config := by simp [State.memWrite]

@[simp] theorem State.arrivals_memWrite (s : State) (c : Chan) (v : Position) :
    (s.memWrite c v).arrivals = s.arrivals := by simp [State.memWrite]

@[simp] theorem State.memRead_memWrite_same (s : State) (c : Chan) (v : Position) :
    (s.memWrite c v).memRead c = v := by simp [State.memWrite, State.memRead]

@[simp] theorem State.chan_memWrite_other (s : State) (c d : Chan) (v : Position) (h : d ≠ c) :
    (s.memWrite c v).chan d = s.chan d := by simp [State.memWrite, h]

@[simp] theorem State.history_memWrite (s : State) (c d : Chan) (v : Position) :
    (s.memWrite c v).history d = s.history d := by
  cases c <;> cases d <;> rfl

/-! ## The ports, the control bits and the pins -/

@[simp] theorem State.intEn_setPin (s : State) (g : PinId) (v : Bool) :
    (s.setPin g v).intEn = s.intEn := rfl

@[simp] theorem State.actRpt_setPin (s : State) (g : PinId) (v : Bool) :
    (s.setPin g v).actRpt = s.actRpt := rfl

@[simp] theorem State.hostRx_setPin (s : State) (g : PinId) (v : Bool) :
    (s.setPin g v).hostRx = s.hostRx := rfl

@[simp] theorem State.results_setPin (s : State) (g : PinId) (v : Bool) :
    (s.setPin g v).results = s.results := rfl

@[simp] theorem State.enableCalls_setPin (s : State) (g : PinId) (v : Bool) :
    (s.setPin g v).enableCalls = s.enableCalls := rfl

@[simp] theorem State.pins_setPin (s : State) (g : PinId) (v : Bool) :
    (s.setPin g v).pins = setPinLevel s.pins g v := rfl

@[simp] theorem State.config_setPin (s : State) (g : PinId) (v : Bool) :
    (s.setPin g v).config = s.config := rfl

@[simp] theorem State.arrivals_setPin (s : State) (g : PinId) (v : Bool) :
    (s.setPin g v).arrivals = s.arrivals := rfl

@[simp] theorem State.chan_setPin (s : State) (g : PinId) (v : Bool) (c : Chan) :
    (s.setPin g v).chan c = s.chan c := by cases c <;> rfl

@[simp] theorem State.intEn_respond (s : State) (r : HostResult) :
    (s.respond r).intEn = s.intEn := rfl

@[simp] theorem State.actRpt_respond (s : State) (r : HostResult) :
    (s.respond r).actRpt = s.actRpt := rfl

@[simp] theorem State.hostRx_respond (s : State) (r : HostResult) :
    (s.respond r).hostRx = s.hostRx := rfl

@[simp] theorem State.results_respond (s : State) (r : HostResult) :
    (s.respond r).results = s.results ++ [r] := rfl

@[simp] theorem State.enableCalls_respond (s : State) (r : HostResult) :
    (s.respond r).enableCalls = s.enableCalls := rfl

@[simp] theorem State.pins_respond (s : State) (r : HostResult) :
    (s.respond r).pins = s.pins := rfl

@[simp] theorem State.config_respond (s : State) (r : HostResult) :
    (s.respond r).config = s.config := rfl

@[simp] theorem State.arrivals_respond (s : State) (r : HostResult) :
    (s.respond r).arrivals = s.arrivals := rfl

@[simp] theorem State.chan_respond (s : State) (r : HostResult) (c : Chan) :
    (s.respond r).chan c = s.chan c := by cases c <;> rfl

@[simp] theorem State.intEn_setIntEn (s : State) (v : Bool) :
    (s.setIntEn v).intEn = v := rfl

@[simp] theorem State.actRpt_setIntEn (s : State) (v : Bool) :
    (s.setIntEn v).actRpt = s.actRpt := rfl

@[simp] theorem State.hostRx_setIntEn (s : State) (v : Bool) :
    (s.setIntEn v).hostRx = s.hostRx := rfl

@[simp] theorem State.results_setIntEn (s : State) (v : Bool) :
    (s.setIntEn v).results = s.results := rfl

@[simp] theorem State.enableCalls_setIntEn (s : State) (v : Bool) :
    (s.setIntEn v).enableCalls = s.enableCalls := rfl

@[simp] theorem State.pins_setIntEn (s : State) (v : Bool) :
    (s.setIntEn v).pins = s.pins := rfl

@[simp] theorem State.config_setIntEn (s : State) (v : Bool) :
    (s.setIntEn v).config = s.config := rfl

@[simp] theorem State.arrivals_setIntEn (s : State) (v : Bool) :
    (s.setIntEn v).arrivals = s.arrivals := rfl

@[simp] theorem State.chan_setIntEn (s : State) (v : Bool) (c : Chan) :
    (s.setIntEn v).chan c = s.chan c := by cases c <;> rfl

@[simp] theorem State.intEn_setActRpt (s : State) (v : Bool) :
    (s.setActRpt v).intEn = s.intEn := rfl

@[simp] theorem State.actRpt_setActRpt (s : State) (v : Bool) :
    (s.setActRpt v).actRpt = v := rfl

@[simp] theorem State.hostRx_setActRpt (s : State) (v : Bool) :
    (s.setActRpt v).hostRx = s.hostRx := rfl

@[simp] theorem State.results_setActRpt (s : State) (v : Bool) :
    (s.setActRpt v).results = s.results := rfl

@[simp] theorem State.enableCalls_setActRpt (s : State) (v : Bool) :
    (s.setActRpt v).enableCalls = s.enableCalls := rfl

@[simp] theorem State.pins_setActRpt (s : State) (v : Bool) :
    (s.setActRpt v).pins = s.pins := rfl

@[simp] theorem State.config_setActRpt (s : State) (v : Bool) :
    (s.setActRpt v).config = s.config := rfl

@[simp] theorem State.arrivals_setActRpt (s : State) (v : Bool) :
    (s.setActRpt v).arrivals = s.arrivals := rfl

@[simp] theorem State.chan_setActRpt (s : State) (v : Bool) (c : Chan) :
    (s.setActRpt v).chan c = s.chan c := by cases c <;> rfl

/-- The four calls of one TGLIRQ (43_control.md R100). -/
def enablesFor (cfg : Config) (v : Bool) : List EnableCall :=
  [{ pin := cfg.pinA .one, rising := true, falling := true, enabled := v },
   { pin := cfg.pinB .one, rising := true, falling := true, enabled := v },
   { pin := cfg.pinA .two, rising := true, falling := true, enabled := v },
   { pin := cfg.pinB .two, rising := true, falling := true, enabled := v }]

@[simp] theorem State.intEn_driveEnables (s : State) (v : Bool) :
    (s.driveEnables v).intEn = s.intEn := rfl

@[simp] theorem State.actRpt_driveEnables (s : State) (v : Bool) :
    (s.driveEnables v).actRpt = s.actRpt := rfl

@[simp] theorem State.hostRx_driveEnables (s : State) (v : Bool) :
    (s.driveEnables v).hostRx = s.hostRx := rfl

@[simp] theorem State.results_driveEnables (s : State) (v : Bool) :
    (s.driveEnables v).results = s.results := rfl

@[simp] theorem State.enableCalls_driveEnables (s : State) (v : Bool) :
    (s.driveEnables v).enableCalls = s.enableCalls ++ enablesFor s.config v := by
  simp [State.driveEnables, State.enableEdgeInterrupt, enablesFor]

@[simp] theorem State.pins_driveEnables (s : State) (v : Bool) :
    (s.driveEnables v).pins = s.pins := rfl

@[simp] theorem State.config_driveEnables (s : State) (v : Bool) :
    (s.driveEnables v).config = s.config := rfl

@[simp] theorem State.arrivals_driveEnables (s : State) (v : Bool) :
    (s.driveEnables v).arrivals = s.arrivals := rfl

@[simp] theorem State.chan_driveEnables (s : State) (v : Bool) (c : Chan) :
    (s.driveEnables v).chan c = s.chan c := by cases c <;> rfl

/-! ## update -/

@[simp] theorem State.intEn_update (s : State) (c : Chan) (a b : Bool) :
    (s.update c a b).intEn = s.intEn := by simp [State.update]

@[simp] theorem State.actRpt_update (s : State) (c : Chan) (a b : Bool) :
    (s.update c a b).actRpt = s.actRpt := by simp [State.update]

@[simp] theorem State.hostRx_update (s : State) (c : Chan) (a b : Bool) :
    (s.update c a b).hostRx = s.hostRx := by simp [State.update]

@[simp] theorem State.results_update (s : State) (c : Chan) (a b : Bool) :
    (s.update c a b).results = s.results := by simp [State.update]

@[simp] theorem State.enableCalls_update (s : State) (c : Chan) (a b : Bool) :
    (s.update c a b).enableCalls = s.enableCalls := by simp [State.update]

@[simp] theorem State.pins_update (s : State) (c : Chan) (a b : Bool) :
    (s.update c a b).pins = s.pins := by simp [State.update]

@[simp] theorem State.config_update (s : State) (c : Chan) (a b : Bool) :
    (s.update c a b).config = s.config := by simp [State.update]

@[simp] theorem State.arrivals_update (s : State) (c : Chan) (a b : Bool) :
    (s.update c a b).arrivals = s.arrivals := by simp [State.update]

@[simp] theorem State.memRead_update_same (s : State) (c : Chan) (a b : Bool) :
    (s.update c a b).memRead c =
      s.memRead c + (dir (s.history c).1 (s.history c).2 a b).addend := by
  simp [State.update, State.memRead, State.history, add32]

@[simp] theorem State.history_update_same (s : State) (c : Chan) (a b : Bool) :
    (s.update c a b).history c = (a, b) := by simp [State.update, State.history]

@[simp] theorem State.chan_update_other (s : State) (c d : Chan) (a b : Bool) (h : d ≠ c) :
    (s.update c a b).chan d = s.chan d := by simp [State.update, h]

/-! ## restart -/

@[simp] theorem State.intEn_restart (s : State) :
    (s.restart).intEn = false := rfl

@[simp] theorem State.actRpt_restart (s : State) :
    (s.restart).actRpt = false := rfl

@[simp] theorem State.hostRx_restart (s : State) :
    (s.restart).hostRx = [] := rfl

@[simp] theorem State.results_restart (s : State) :
    (s.restart).results = s.results := rfl

@[simp] theorem State.enableCalls_restart (s : State) :
    (s.restart).enableCalls = s.enableCalls := rfl

@[simp] theorem State.pins_restart (s : State) :
    (s.restart).pins = s.pins := rfl

@[simp] theorem State.config_restart (s : State) :
    (s.restart).config = s.config := rfl

@[simp] theorem State.arrivals_restart (s : State) :
    (s.restart).arrivals = s.arrivals := rfl

@[simp] theorem State.chan_restart (s : State) (c : Chan) :
    s.restart.chan c = Channel.reset := by cases c <;> rfl

end Sys2Proof.Machine
end

