-- ==== Sys2Proof/Laws/Ops.lean ====
section
/-! SUPPORT. Laws/Ops.lean: what the shared operations do: the pin levels and their canonical form,
the registration table, the directions and the byte order. -/

namespace Sys2Proof.Machine

/-! ## Pin levels -/

theorem mem_raisePin (g p : PinId) (high : List PinId) :
    p ∈ raisePin g high ↔ p = g ∨ p ∈ high := by
  induction high with
  | nil => simp [raisePin]
  | cons q qs ih =>
    unfold raisePin
    split
    · next h => subst h; simp
    · split
      · simp
      · simp only [List.mem_cons, ih]
        tauto

/-- Reading a pin after `PIN g = v`: the new level at `g`, the old one everywhere else. -/
theorem pinLevel_setPinLevel (high : List PinId) (g p : PinId) (v : Bool) :
    pinLevel (setPinLevel high g v) p = if p = g then v else pinLevel high p := by
  have e : ∀ (l : List PinId) (q : PinId), pinLevel l q = decide (q ∈ l) :=
    fun l q => List.contains_eq_mem q l
  by_cases h : p = g <;> cases v <;> simp [setPinLevel, e, mem_raisePin, h]

/-- The first element of a canonical list lies below every later one. -/
theorem pinsWf_cons (p : PinId) (ps : List PinId) :
    pinsWf (p :: ps) = true ↔ (∀ q ∈ ps, p.toNat < q.toNat) ∧ pinsWf ps = true := by
  induction ps generalizing p with
  | nil => simp [pinsWf]
  | cons r rs ih =>
    simp only [pinsWf, Bool.and_eq_true, decide_eq_true_eq, List.mem_cons, forall_eq_or_imp, ih r]
    constructor
    · rintro ⟨h, h', h''⟩
      exact ⟨⟨h, fun q hq => lt_trans h (h' q hq)⟩, h', h''⟩
    · rintro ⟨⟨h, -⟩, h', h''⟩
      exact ⟨h, h', h''⟩

theorem pinsWf_raisePin (g : PinId) (high : List PinId) (h : pinsWf high = true) :
    pinsWf (raisePin g high) = true := by
  induction high with
  | nil => rfl
  | cons p ps ih =>
    rw [pinsWf_cons] at h
    unfold raisePin
    split
    · exact (pinsWf_cons p ps).2 h
    · next hne =>
      split
      · next hlt =>
        refine (pinsWf_cons g (p :: ps)).2 ⟨?_, (pinsWf_cons p ps).2 h⟩
        intro q hq
        rcases List.mem_cons.1 hq with rfl | hq
        · exact hlt
        · exact lt_trans hlt (h.1 q hq)
      · next hlt =>
        refine (pinsWf_cons p _).2 ⟨?_, ih h.2⟩
        intro q hq
        rcases (mem_raisePin g q ps).1 hq with rfl | hq
        · have : q.toNat ≠ p.toNat := fun e => hne (BitVec.eq_of_toNat_eq e)
          omega
        · exact h.1 q hq

theorem pinsWf_filter (f : PinId → Bool) (high : List PinId) (h : pinsWf high = true) :
    pinsWf (high.filter f) = true := by
  induction high with
  | nil => rfl
  | cons p ps ih =>
    rw [pinsWf_cons] at h
    rw [List.filter_cons]
    split
    · exact (pinsWf_cons p _).2 ⟨fun q hq => h.1 q (List.mem_filter.1 hq).1, ih h.2⟩
    · exact ih h.2

/-- Setting a pin keeps the canonical form. -/
theorem pinsWf_setPinLevel (high : List PinId) (g : PinId) (v : Bool) (h : pinsWf high = true) :
    pinsWf (setPinLevel high g v) = true := by
  cases v with
  | true => simpa [setPinLevel] using pinsWf_raisePin g high h
  | false => simpa [setPinLevel] using pinsWf_filter (· != g) high h

@[simp] theorem State.pin_setPin (s : State) (g p : PinId) (v : Bool) :
    (s.setPin g v).pin p = if p = g then v else s.pin p := pinLevel_setPinLevel s.pins g p v

/-! ## The registration table -/

/-- The four pins of a configuration are different pins (00_scope.md R4). -/
theorem config_pins_distinct (cfg : Config) :
    cfg.pins.a1 ≠ cfg.pins.b1 ∧ cfg.pins.a1 ≠ cfg.pins.a2 ∧ cfg.pins.a1 ≠ cfg.pins.b2 ∧
      cfg.pins.b1 ≠ cfg.pins.a2 ∧ cfg.pins.b1 ≠ cfg.pins.b2 ∧ cfg.pins.a2 ≠ cfg.pins.b2 := by
  have h := cfg.pins_wf
  simpa [PinAssignment.wf, and_assoc] using h

@[simp] theorem regEntry_pinA (cfg : Config) (c : Chan) :
    regEntry cfg (cfg.pinA c) = some (c, .a) := by
  obtain ⟨h1, h2, h3, h4, h5, h6⟩ := config_pins_distinct cfg
  cases c
  · simp [regEntry]
  · simp [regEntry, Config.pinA, Config.pinB, Ne.symm h2, Ne.symm h4]

@[simp] theorem regEntry_pinB (cfg : Config) (c : Chan) :
    regEntry cfg (cfg.pinB c) = some (c, .b) := by
  obtain ⟨h1, h2, h3, h4, h5, h6⟩ := config_pins_distinct cfg
  cases c
  · simp [regEntry, Config.pinA, Config.pinB, Ne.symm h1]
  · simp [regEntry, Config.pinA, Config.pinB, Ne.symm h3, Ne.symm h5, Ne.symm h6]

@[simp] theorem route_pinA (cfg : Config) (c : Chan) : route cfg (cfg.pinA c) = some c := by
  simp [route]

@[simp] theorem route_pinB (cfg : Config) (c : Chan) : route cfg (cfg.pinB c) = some c := by
  simp [route]

/-- What a successful lookup says: the pin is one of the channel's two. -/
theorem route_some (cfg : Config) (g : PinId) (c : Chan) (h : route cfg g = some c) :
    g = cfg.pinA c ∨ g = cfg.pinB c := by
  simp only [route, regEntry] at h
  split at h
  · next e => cases c <;> simp_all
  · split at h
    · next e => cases c <;> simp_all
    · split at h
      · next e => cases c <;> simp_all
      · split at h
        · next e => cases c <;> simp_all
        · simp at h

/-! ## Directions -/

theorem Direction.addend_eq_ofInt (d : Direction) : d.addend = BitVec.ofInt 32 d.toInt := by
  cases d <;> decide

theorem Direction.toInt_bound (d : Direction) : -1 ≤ d.toInt ∧ d.toInt ≤ 1 := by
  cases d <;> decide

/-- DIR is 0 exactly on a duplicate (40_quadrature_decode.md R74). -/
theorem dir_hold (la lb a b : Bool) : dir la lb a b = .hold ↔ (a, b) = (la, lb) := by
  cases la <;> cases lb <;> cases a <;> cases b <;> decide

/-! ## Byte order -/

@[simp] theorem le32_length (v : Position) : (le32 v).length = 4 := rfl

/-- The operand that four little-endian bytes spell is the vector they came from
(20_memory.md R32, R33). -/
theorem unle32_le32 (v : Position) :
    unle32 (v.extractLsb' 0 8) (v.extractLsb' 8 8) (v.extractLsb' 16 8) (v.extractLsb' 24 8) = v := by
  apply BitVec.eq_of_getLsbD_eq
  intro i hi
  simp only [unle32, BitVec.getLsbD_append, BitVec.getLsbD_extractLsb']
  by_cases h1 : i < 8
  · simp [h1]
  · by_cases h2 : i - 8 < 8
    · have e : 8 + (i - 8) = i := by omega
      simp [h1, h2, e]
    · by_cases h3 : i - 8 - 8 < 8
      · have e : 16 + (i - 8 - 8) = i := by omega
        simp [h1, h2, h3, e]
      · have e : 24 + (i - 8 - 8 - 8) = i := by omega
        have h4 : i - 8 - 8 - 8 < 8 := by omega
        simp [h1, h2, h3, h4, e]

end Sys2Proof.Machine
end

