-- ==== Sys2Proof/Laws/PerInstr.lean ====
section
/-! SUPPORT. Laws/PerInstr.lean: statements for all instructions, one lemma per constructor. -/

namespace Sys2Proof.Laws

/-- The number of bits a transaction carries. -/
def transactionBits : Transaction → Nat
  | .host bs => 8 * bs.length
  | .event _ => 16

namespace TableWidth

/-- The width of an instruction's row in spec/opcode_table.json. -/
def width : Instr → Nat
  | .rdpos _ => 8
  | .rstpos _ => 8
  | .addpos _ _ => 40
  | .tglirq => 8
  | .tglrpt => 8
  | .unrec _ => 8
  | .edge _ _ => 16

/-- The encoding of an instruction is exactly as wide as its row of the opcode table
(30_encoding.md R51 to R54). -/
def Statement (i : Instr) : Prop := transactionBits (encode i) = width i

theorem rdpos (c : Chan) : Statement (.rdpos c) := rfl
theorem rstpos (c : Chan) : Statement (.rstpos c) := rfl
theorem addpos (c : Chan) (imm : Position) : Statement (.addpos c imm) := rfl
theorem tglirq : Statement .tglirq := rfl
theorem tglrpt : Statement .tglrpt := rfl
theorem unrec (b : Byte) : Statement (.unrec b) := rfl
theorem edge (g : PinId) (k : EdgeKind) : Statement (.edge g k) := rfl

end TableWidth

end Sys2Proof.Laws
end

