-- ==== Sys2Proof/Laws/Step.lean ====
section
/-! SUPPORT. Laws/Step.lean: what a fetch and a step can do, said once, and runs one step at a time. -/

namespace Sys2Proof.Machine

/-- Everything a fetch can bring: the block idles, a byte completes an operation or waits, an event
arrives, a pin moves, or the block is reset. -/
theorem State.fetch_cases (s : State) :
    (s.arrivals = [] ∧ s.fetch = .quiet s) ∨
    (∃ b rest i left, s.arrivals = .hostByte b :: rest ∧ decodeHost (s.hostRx ++ [b]) = .ok (i, left) ∧
      s.fetch = .run i { s with hostRx := left, arrivals := rest }) ∨
    (∃ b rest e, s.arrivals = .hostByte b :: rest ∧ decodeHost (s.hostRx ++ [b]) = .error e ∧
      s.fetch = .quiet { s with hostRx := s.hostRx ++ [b], arrivals := rest }) ∨
    (∃ w rest, s.arrivals = .event w :: rest ∧
      s.fetch = .run (decodeEvent w) { s with arrivals := rest }) ∨
    (∃ g v rest, s.arrivals = .pin g v :: rest ∧
      s.fetch = .quiet ({ s with arrivals := rest }.setPin g v)) ∨
    (∃ rest, s.arrivals = .reset :: rest ∧ s.fetch = .quiet { s with arrivals := rest }.restart) := by
  unfold State.fetch
  cases h : s.arrivals with
  | nil => exact .inl ⟨rfl, rfl⟩
  | cons a rest =>
    right
    cases a with
    | hostByte b =>
      simp only [State.receive, State.receiveByte]
      cases hd : decodeHost (s.hostRx ++ [b]) with
      | ok p => exact .inl ⟨b, rest, p.1, p.2, rfl, hd, by simp⟩
      | error e => exact .inr (.inl ⟨b, rest, e, rfl, hd, by simp⟩)
    | event w => exact .inr (.inr (.inl ⟨w, rest, rfl, rfl⟩))
    | pin g v => exact .inr (.inr (.inr (.inl ⟨g, v, rest, rfl, rfl⟩)))
    | reset => exact .inr (.inr (.inr (.inr ⟨rest, rfl, rfl⟩)))

theorem step_of_quiet (s t : State) (h : s.fetch = .quiet t) : step s = .next t := by
  simp [step, h]

theorem step_of_run (s t : State) (i : Instr) (h : s.fetch = .run i t) : step s = exec i t := by
  simp [step, h]

/-- What EDGE can do: nothing, where the pin is unknown or the event port takes no event, or the
service of the owning channel. -/
theorem execEdge_cases (g : PinId) (k : EdgeKind) (s : State) :
    (route s.config g = none ∧ execEdge g k s = .next s) ∨
    (∃ c, route s.config g = some c ∧ s.intEn = false ∧ execEdge g k s = .next s) ∨
    (∃ c, route s.config g = some c ∧ s.intEn = true ∧
      execEdge g k s = .next (s.update c (s.sample c).1 (s.sample c).2)) := by
  unfold execEdge
  cases h : route s.config g with
  | none => exact .inl ⟨rfl, rfl⟩
  | some c =>
    cases hi : s.intEn with
    | false => exact .inr (.inl ⟨c, rfl, rfl, by simp [State.edgeEnabled, hi, h]⟩)
    | true =>
      refine .inr (.inr ⟨c, rfl, rfl, ?_⟩)
      simp [State.edgeEnabled, hi, State.serve, State.interruptEntry, State.interruptReturn]

@[simp] theorem after_zero (s : State) : after 0 s = s := rfl

/-- The first step of a run. -/
theorem after_succ_of_step (n : Nat) (s t : State) (h : step s = .next t)
    (hn : ∃ u, Host.Core.run Sys2Proof.core n t = .next u) : after (n + 1) s = after n t := by
  obtain ⟨u, hu⟩ := hn
  have h' : Host.Core.run Sys2Proof.core (n + 1) s = Host.Core.run Sys2Proof.core n t := by
    simp only [Host.Core.run]
    rw [show Host.Core.step Sys2Proof.core s = .next t from h]
  unfold after
  rw [h', hu]

end Sys2Proof.Machine
end

