-- ==== Sys2Proof/Tests/Slice0.lean ====
section
/-! SUPPORT. Tests/Slice0.lean: the model's own tests. Expected values are those of spec/95_test_vectors.md
(named in each comment) or worked out by hand from the rule named; the second half shows, for each
statement with hypotheses, a state and operands that meet them. -/

namespace Sys2Proof.Tests

open Sys2Proof.Machine

/-- A state of the example configuration (95_test_vectors.md section 1). -/
def mk (p1 p2 : Position) (l1 l2 : Bool × Bool) (ie ar : Bool) (high : List PinId)
    (arr : List Arrival) : State :=
  { State.reset with
    ch1 := { pos := p1, lastA := l1.1, lastB := l1.2 }
    ch2 := { pos := p2, lastA := l2.1, lastB := l2.2 }
    intEn := ie, actRpt := ar, pins := high, arrivals := arr }

/-- The next state of an outcome, if it has one. -/
def nextOf : Host.Outcome State Fault Refusal → Option State
  | .next t => some t
  | .fault _ => none
  | .refused _ => none

/-- The block's own state as 95_test_vectors.md writes it. -/
def view (s : State) : (Position × Position) × ((Bool × Bool) × (Bool × Bool)) × (Bool × Bool) :=
  ((s.memRead .one, s.memRead .two), (s.history .one, s.history .two), (s.intEn, s.actRpt))

/-! ## Well-formedness: every check refuses an ill-formed term -/

-- R58, R60: UNREC takes no assigned byte.
theorem test_wf_refuses_assigned_bytes :
    ([0x10, 0x11, 0x20, 0x21, 0x30, 0x31, 0x40, 0x50] : List Byte).all
      (fun b => !Instr.wf (.unrec b)) = true := by decide
theorem test_wf_accepts_unassigned_bytes :
    ([0x00, 0x12, 0x41, 0x60, 0xFF] : List Byte).all (fun b => Instr.wf (.unrec b)) = true := by decide
-- R4: each of the six ways two pins can coincide is refused, and so is PPR = 0.
theorem test_config_refuses_shared_pins :
    ([⟨2, 2, 4, 5⟩, ⟨2, 3, 2, 5⟩, ⟨2, 3, 4, 2⟩, ⟨2, 3, 3, 5⟩, ⟨2, 3, 4, 3⟩, ⟨2, 3, 4, 4⟩] :
      List PinAssignment).all (fun p => (Config.check p 800).isNone) = true := by decide
theorem test_config_refuses_zero_ppr : Config.check ⟨2, 3, 4, 5⟩ 0 = none := by decide
theorem test_config_accepts_example : (Config.check ⟨2, 3, 4, 5⟩ 800) = some exampleConfig := by decide

/-! ## Decoding, words written out from the encoding tables (R51 to R53, R58) -/

-- op = 0001, z = 000, c = 1
theorem test_decode_rdpos2 : decodeHost [0b00010001] = .ok (.rdpos .two, []) := by rfl
-- op = 0010, z = 000, c = 0
theorem test_decode_rstpos1 : decodeHost [0b00100000] = .ok (.rstpos .one, []) := by rfl
-- 95_test_vectors.md 3.6: 30 10 11 20 21 10 is ADDPOS 1, 0x21201110 and then the byte 10
theorem test_decode_addpos_operand : decodeHost [0x30, 0x10, 0x11, 0x20, 0x21, 0x10] =
    .ok (.addpos .one 0x21201110, [0x10]) := by rfl
-- 95_test_vectors.md 3.6: 30 01 02 and nothing more waits
theorem test_decode_addpos_waits : decodeHost [0x30, 0x01, 0x02] = .error .operandBytes := by rfl
theorem test_decode_tglirq : decodeHost [0b01000000] = .ok (.tglirq, []) := by rfl
theorem test_decode_tglrpt : decodeHost [0b01010000] = .ok (.tglrpt, []) := by rfl
-- 95_test_vectors.md 3.6: 13 1F 2E 3C 4F 5A are UNREC
theorem test_decode_unrec : ([0x13, 0x1F, 0x2E, 0x3C, 0x4F, 0x5A] : List Byte).all
    (fun b => match decodeHost [b] with | .ok (i, _) => i == .unrec b | .error _ => false) = true := by
  decide
-- 95_test_vectors.md 3.6: the event words
theorem test_decode_edge : decodeEvent 0b0000001000000010 = .edge 2 .rise ∧
    decodeEvent 0x0103 = .edge 3 .fall ∧ decodeEvent 0x0004 = .edge 4 .none ∧
    decodeEvent 0x0305 = .edge 5 .both ∧ decodeEvent 0xFFFF = .edge 255 .both := by decide
-- R60: the encodings the other way
theorem test_encode : encode (.addpos .one (-5)) = .host [0x30, 0xFB, 0xFF, 0xFF, 0xFF] ∧
    encode (.edge 5 .fall) = .event 0x0105 ∧ encode (.rdpos .two) = .host [0x11] := by decide

/-! ## One step each -/

-- A-3: RDPOS responds 78 56 34 12; A-2: -1 is FF FF FF FF
theorem test_rdpos_bytes : (after 1 (mk 0x12345678 0 (false, false) (false, false) false false []
    [.hostByte 0x10])).results = [.bytes [0x78, 0x56, 0x34, 0x12]] := by decide
theorem test_rdpos_negative : (after 1 (mk 0 0xFFFFFFFF (false, false) (false, false) true true []
    [.hostByte 0x11])).results = [.bytes [0xFF, 0xFF, 0xFF, 0xFF]] := by decide
-- A-6: RSTPOS 2 zeroes channel 2 only and keeps the history (R93)
theorem test_rstpos_two : view (after 1 (mk 7 0xFFFFFFF6 (false, true) (true, true) true false []
    [.hostByte 0x21])) = ((7, 0), ((false, true), (true, true)), (true, false)) := by decide
-- A-8: 10 + (-5) = 5, the five bytes arriving one at a time
theorem test_addpos_minus_five : (after 5 (mk 10 0 (false, false) (false, false) false false []
    [.hostByte 0x30, .hostByte 0xFB, .hostByte 0xFF, .hostByte 0xFF, .hostByte 0xFF])).memRead .one =
      5 := by decide
-- A-11, A-14: wrap at both ends
theorem test_addpos_wraps : (nextOf (exec (.addpos .one 1) (mk 0x7FFFFFFF 0 (false, false)
      (false, false) false false [] []))).map (State.memRead · .one) = some 0x80000000 ∧
    (nextOf (exec (.addpos .two 0x80000000) (mk 0 0x80000000 (false, false)
      (false, false) false false [] []))).map (State.memRead · .two) = some 0 := by decide
-- S-3: TGLIRQ from 1 1 responds 0 and leaves 0 1; the enables are driven with false for 2, 3, 4, 5
theorem test_tglirq_disables : let t := after 1 (mk 0 0 (false, false) (false, false) true true []
      [.hostByte 0x40]);
    (t.intEn, t.actRpt) = (false, true) ∧ t.results = [.bit false] ∧
      t.enableCalls = [⟨2, true, true, false⟩, ⟨3, true, true, false⟩, ⟨4, true, true, false⟩,
        ⟨5, true, true, false⟩] := by decide
-- S-1: from reset the first TGLIRQ enables
theorem test_tglirq_enables : (after 1 { State.reset with arrivals := [.hostByte 0x40] }).results =
    [.bit true] := by decide
-- S-5: TGLRPT from 1 1 leaves 1 0, no result
theorem test_tglrpt : let t := after 1 (mk 0 0 (false, false) (false, false) true true []
      [.hostByte 0x50]);
    (t.intEn, t.actRpt, t.results) = (true, false, []) := by decide
-- S-8: UNREC 0x12 changes nothing
theorem test_unrec : after 1 (mk 1 2 (true, false) (false, true) true false [2] [.hostByte 0x12]) =
    mk 1 2 (true, false) (false, true) true false [2] [] := by decide
-- E-1 and E-3: EDGE 5 with Pin(5) = 1, and the same with `ev` and bits 15:10 set otherwise
theorem test_edge_reverse : view (after 1 (mk 0 0 (false, false) (false, false) true false [5]
      [.event 0x0205])) = ((0, 0xFFFFFFFF), ((false, false), (false, true)), (true, false)) ∧
    view (after 1 (mk 0 0 (false, false) (false, false) true false [5] [.event 0xFD05])) =
      ((0, 0xFFFFFFFF), ((false, false), (false, true)), (true, false)) := by decide
-- E-9: the diagonal 10 to 01 counts +1; E-6: gated with INT_EN = 0
theorem test_edge_diagonal_and_gate : view (after 1 (mk 5 9 (true, false) (false, true) true false
      [3] [.event 0x0203])) = ((6, 9), ((false, true), (false, true)), (true, false)) ∧
    view (after 1 (mk 5 9 (true, false) (false, true) false false [3] [.event 0x0203])) =
      ((5, 9), ((true, false), (false, true)), (false, false)) := by decide
-- T0 to T15
theorem test_dir_table : (List.range 16).map (fun i => (dir (i.testBit 3) (i.testBit 2)
      (i.testBit 1) (i.testBit 0)).toInt) =
    [0, -1, 1, -1, 1, 0, 1, -1, -1, 1, 0, 1, -1, 1, -1, 0] := by decide
-- Z-1: the reset input
theorem test_reset : view (after 1 (mk 4 0xFFFFFFFC (false, true) (true, false) true true [3, 4]
    [.reset])) = ((0, 0), ((false, false), (false, false)), (false, false)) := by decide
-- R17: CTRL has INT_EN in bit 0 and ACT_RPT in bit 1
theorem test_ctrl_bits : (mk 0 0 (false, false) (false, false) true false [] []).ctrl = 1 ∧
    (mk 0 0 (false, false) (false, false) false true [] []).ctrl = 2 := by decide
-- withFetchWord: the very next step runs the row's operation from reset
theorem test_withFetchWord : (after 1 (State.reset.withFetchWord 40 0x0000000A31)).memRead .two = 10 ∧
    (State.reset.withFetchWord 8 0x21).nextInstr = some (.rstpos .two) ∧
    (State.reset.withFetchWord 16 0x0109).nextInstr = some (.edge 9 .fall) := by decide

/-! ## Witnesses: the hypotheses of the statements are met -/

/-- One valid forward step of channel 1, notified: pins (1, 0), history 00. -/
def served : State := mk 7 0 (false, false) (false, false) true false [2] [.event 0x0202]

theorem witness_channel_writers :
    (step served = .next (after 1 served) ∧
      (after 1 served).history .one ≠ served.history .one ∧
      (after 1 served).memRead .one ≠ served.memRead .one) ∧
    (let s := mk 7 0 (true, true) (false, false) true false [] [.hostByte 0x20];
      step s = .next (after 1 s) ∧ (after 1 s).memRead .one ≠ s.memRead .one) ∧
    (let s := mk 7 0 (true, true) (false, false) true false [] [.reset];
      step s = .next (after 1 s) ∧ (after 1 s).memRead .one ≠ s.memRead .one) :=
  ⟨⟨rfl, by decide, by decide⟩, ⟨rfl, by decide⟩, ⟨rfl, by decide⟩⟩

theorem witness_update_bounds :
    validTransition (served.history .one) (true, false) = true ∧
    -2147483648 < (served.memRead .one).toInt ∧ (served.memRead .one).toInt < 2147483647 := by decide

theorem witness_channels_independent :
    instrChannel served.config (.edge 2 .rise) = some .one ∧ Chan.two ≠ Chan.one ∧
      exec (.edge 2 .rise) served = .next (served.update .one true false) := ⟨by decide, by decide, rfl⟩

theorem witness_control_bits :
    (let s := mk 0 0 (false, false) (false, false) false false [] [.hostByte 0x40];
      step s = .next (after 1 s) ∧ (after 1 s).intEn ≠ s.intEn) ∧
    (let s := mk 0 0 (false, false) (false, false) false false [] [.hostByte 0x50];
      step s = .next (after 1 s) ∧ (after 1 s).actRpt ≠ s.actRpt) ∧
    (let s := mk 0 0 (false, false) (false, false) true true [] [.reset];
      step s = .next (after 1 s) ∧ (after 1 s).intEn ≠ s.intEn ∧ (after 1 s).actRpt ≠ s.actRpt) :=
  ⟨⟨rfl, by decide⟩, ⟨rfl, by decide⟩, ⟨rfl, by decide, by decide⟩⟩

theorem witness_reset_input :
    (mk 4 5 (true, true) (true, false) true true [2] [.reset, .event 9]).arrivals =
      .reset :: [.event 9] := rfl

/-- A state whose host port has received `rx` and whose channel 1 pins stand at (1, 0). -/
def waiting (rx : List Byte) (arr : List Arrival) : State :=
  { mk 0 0 (false, false) (false, false) true false [2] arr with hostRx := rx }

theorem witness_reset_discards :
    (waiting [0x30, 1, 2] [.reset, .hostByte 0x11]).arrivals = .reset :: [.hostByte 0x11] ∧
      decodeHost [0x11] = .ok (.rdpos .two, []) := ⟨rfl, rfl⟩

theorem witness_unassigned_byte :
    (0xFF : Byte) ∉ ([0x10, 0x11, 0x20, 0x21, 0x30, 0x31, 0x40, 0x50] : List Byte) ∧
      Instr.wf (.unrec 0xFF) = true := by decide

theorem witness_lengths :
    decodeHost (0x31 :: [1, 2, 3, 4, 0x40]) = .ok (.addpos .two 0x04030201, [0x40]) ∧
    decodeHost (0x40 :: [0x30]) = .ok (.tglirq, [0x30]) ∧
    decodeHost (0x31 :: [1, 2, 3]) = .error .operandBytes := ⟨rfl, rfl, rfl⟩

theorem witness_ignored_bits :
    (0xFD05 : EventWord) ≠ 0x0105 ∧
      (0xFD05 : EventWord).toNat % 1024 = (0x0105 : EventWord).toNat % 1024 := by decide

theorem witness_encodings :
    Instr.wf (.addpos .two 0x80000000) = true ∧
      encode (.addpos .two 0x80000000) = .host [0x31, 0, 0, 0, 0x80] ∧
      decodeHost [0x31, 0, 0, 0, 0x80, 0x10] = .ok (.addpos .two 0x80000000, [0x10]) := ⟨rfl, rfl, rfl⟩

theorem witness_step_runs :
    State.reset.arrivals = [] ∧ served.arrivals = .event 0x0202 :: [] ∧
    (let s := mk 0 0 (false, false) (false, false) false false [] [.hostByte 0x11];
      s.arrivals = .hostByte 0x11 :: [] ∧ decodeHost (s.hostRx ++ [0x11]) = .ok (.rdpos .two, [])) ∧
    (let s := mk 0 0 (false, false) (false, false) false false [] [.hostByte 0x31];
      s.arrivals = .hostByte 0x31 :: [] ∧ decodeHost (s.hostRx ++ [0x31]) = .error .operandBytes) ∧
    (mk 0 0 (false, false) (false, false) false false [] [.pin 2 true]).arrivals = .pin 2 true :: [] :=
  ⟨rfl, rfl, ⟨rfl, rfl⟩, ⟨rfl, rfl⟩, rfl⟩

theorem witness_addpos_waits :
    (let s := waiting [0x30] [.hostByte 1];
      hostRxWf s.hostRx = true ∧ s.hostRx ≠ [] ∧ s.hostRx.length < 4) ∧
    (let s := waiting [0x31, 1, 2] [.hostByte 3];
      hostRxWf s.hostRx = true ∧ s.hostRx ≠ [] ∧ s.hostRx.length = 3 ∧ s.hostRx.length < 4) ∧
    (let s := waiting [0x30, 1, 2] [.event 0x0202, .pin 3 true];
      hostRxWf s.hostRx = true ∧ s.hostRx ≠ [] ∧
        s.arrivals = [.event 0x0202, .pin 3 true] ++ [] ∧
        [Arrival.event 0x0202, Arrival.pin 3 true].all Arrival.notHost = true) ∧
    (let s := waiting [0x30, 1, 2, 3] [.hostByte 4];
      hostRxWf s.hostRx = true ∧ s.hostRx ≠ [] ∧ s.hostRx.length = 4) := by decide

theorem witness_equal_pins :
    pinsWf [2, 5] = true ∧ setPinLevel [5] 2 true = [2, 5] ∧ pinsWf [5, 2] = false := by decide

theorem witness_duplicate : (false, false) = served.history .one := by decide

theorem witness_diagonal : true ≠ (served.history .one).1 ∧ true ≠ (served.history .one).2 := by decide

theorem witness_wrap :
    (let s := mk 0x7FFFFFFF 0 (false, false) (false, false) true false [] [];
      dir (s.history .one).1 (s.history .one).2 true false = .up ∧ s.memRead .one = 0x7FFFFFFF) ∧
    (let s := mk 0x80000000 0 (false, false) (false, false) true false [] [];
      dir (s.history .one).1 (s.history .one).2 false true = .down ∧ s.memRead .one = 0x80000000) ∧
    dir (served.history .two).1 (served.history .two).2 false true = .down ∧
    served.memRead .two = 0 := by decide

theorem witness_in_range_at_the_end :
    let s := mk 0x7FFFFFFE 0 (false, false) (false, false) true false [] [];
    (s.memRead .one).toInt + (dir (s.history .one).1 (s.history .one).2 true false).toInt =
      2147483647 := by decide

theorem witness_edge_enabled :
    served.intEn = true ∧ (2 : PinId) = served.config.pinA .one ∧
      (5 : PinId) = served.config.pinB .two := by decide

theorem witness_unknown_pin : UnknownPin exampleConfig (BitVec.ofNat 8 (0x0109 : EventWord).toNat) := by
  intro c
  cases c <;> decide

theorem witness_edge_disabled : State.reset.intEn = false := rfl

theorem witness_same_channel_pins :
    route served.config 2 = some .one ∧ route served.config 3 = some .one := by decide

theorem witness_reporting : Instr.edge 2 .rise ≠ .tglrpt ∧
    exec (.edge 2 .rise) served = .next (served.update .one true false) := ⟨by decide, rfl⟩

theorem witness_tglirq_next : exec .tglirq State.reset =
    .next { State.reset with
      intEn := true
      enableCalls := [⟨2, true, true, true⟩, ⟨3, true, true, true⟩, ⟨4, true, true, true⟩,
        ⟨5, true, true, true⟩]
      results := [.bit true] } := rfl

theorem witness_outputs :
    (let s := mk 0 0 (false, false) (false, false) false false [] [.hostByte 0x40];
      step s = .next (after 1 s) ∧ (after 1 s).enableCalls ≠ s.enableCalls ∧
        (after 1 s).results ≠ s.results) ∧
    (let s := mk 0 0 (false, false) (false, false) false false [] [.hostByte 0x10];
      step s = .next (after 1 s) ∧ (after 1 s).results ≠ s.results) :=
  ⟨⟨rfl, by decide, by decide⟩, ⟨rfl, by decide⟩⟩

theorem witness_position_access : (Instr.rdpos .one = .rdpos .one ∨ Instr.rdpos .one = .rstpos .one ∨
    ∃ imm, Instr.rdpos .one = .addpos .one imm) := .inl rfl

theorem witness_command :
    (Command.injectOffset .one (-5)).wf = true ∧ State.reset.hostRx = [] ∧
      { State.reset with arrivals := (Command.injectOffset .one (-5)).arrivals }.arrivals =
        (Command.injectOffset .one (-5)).arrivals ++ [] := by decide

theorem witness_return_encoders :
    (let s := mk 7 0xFFFFFFFE (false, false) (true, true) true false [4, 5]
        [.hostByte 0x10, .pin 4 false, .event 0x0104, .hostByte 0x11];
      s.hostRx = [] ∧ [Arrival.pin 4 false, Arrival.event 0x0104].all Arrival.notHost = true ∧
        s.arrivals = .hostByte 0x10 :: ([.pin 4 false, .event 0x0104] ++ .hostByte 0x11 :: [])) ∧
    (let s := { State.reset with arrivals := [.hostByte 0x10, .hostByte 0x11] };
      s.memRead .one = 0 ∧ s.memRead .two = 0 ∧ s.hostRx = [] ∧
        s.arrivals = .hostByte 0x10 :: .hostByte 0x11 :: []) := by decide

/-- From reset: a pin moves, its notification arrives while `INT_EN` is 0, and an offset is added. -/
def beforeToggle : State :=
  { State.reset with
    arrivals := [.pin 2 true, .event 0x0202, .hostByte 0x31, .hostByte 1, .hostByte 0, .hostByte 0,
      .hostByte 0] }

theorem witness_before_first_toggle :
    beforeToggle.ch1 = Channel.reset ∧ beforeToggle.ch2 = Channel.reset ∧
    beforeToggle.intEn = false ∧ (∀ k, k < 7 → (after k beforeToggle).nextInstr ≠ some .tglirq) ∧
    (∀ k, k < 7 → (after k beforeToggle).nextInstr ≠ some (.addpos .two 0)) ∧
    (after 7 beforeToggle).memRead .two = 1 := by decide

theorem witness_no_addpos_of_channel_one :
    ∀ k imm, k < 2 → (after k beforeToggle).nextInstr ≠ some (.addpos .one imm) := by
  intro k imm hk h
  have e : (after k beforeToggle).nextInstr = none ∨
      (after k beforeToggle).nextInstr = some (.edge 2 .rise) := by
    interval_cases k
    · exact .inl rfl
    · exact .inr rfl
  rcases e with e | e <;> rw [e] at h <;> cases h

theorem witness_toggle_parity :
    let s := mk 0 0 (false, false) (false, false) false false []
      [.hostByte 0x40, .hostByte 0x10, .hostByte 0x40, .hostByte 0x40];
    (∀ k, k < 4 → (after k s).arrivals.head? ≠ some .reset) ∧ (after 4 s).intEn = true := by decide

theorem witness_disabled_run :
    (∀ k, k < 2 → (after k beforeToggle).intEn = false ∧
      (after k beforeToggle).arrivals.head? ≠ some .reset) ∧
    (after 2 beforeToggle).sample .one ≠ (after 2 beforeToggle).history .one := by decide

theorem witness_disabled_run_no_writes :
    ∀ k, k < 2 → ∀ imm, (after k beforeToggle).nextInstr ≠ some (.rstpos .one) ∧
      (after k beforeToggle).nextInstr ≠ some (.addpos .one imm) := by
  intro k hk imm
  refine ⟨?_, witness_no_addpos_of_channel_one k imm hk⟩
  interval_cases k <;> decide

/-- Channel 1 makes one forward step, which is served, and then ADDPOS 1, 2 arrives. -/
def counted : State := mk 10 0 (false, false) (false, false) true false []
  [.pin 2 true, .event 0x0202, .hostByte 0x30, .hostByte 2, .hostByte 0, .hostByte 0, .hostByte 0]

theorem witness_ledger :
    (∀ k, k < 7 → (after k counted).clearsNext .one = false) ∧ (after 7 counted).memRead .one = 13 := by
  decide

theorem witness_no_missed_edge : NoMissedEdge .one 7 counted ∧
    (∀ k, k < 7 → (after k counted).nextInstr ≠ some (.rstpos .one)) ∧
    (after 1 counted).servesNext .one = true := by
  refine ⟨⟨by decide, by decide, ?_⟩, by decide, by decide⟩
  have moves : ∀ k, k < 7 → (after k counted).movesNext .one = true → k = 0 := by decide
  intro k hk hm
  have h0 := moves k hk hm
  subst h0
  exact ⟨1, by decide, by decide, by decide, fun m h1 h2 => by omega⟩

theorem witness_wf_step :
    counted.wf = true ∧ step counted = .next (after 1 counted) ∧ (after 1 counted).wf = true :=
  ⟨by decide, rfl, by decide⟩

end Sys2Proof.Tests
end

section
/-! SUPPORT. What the configuration check accepts, what each operation does as an equation, and runs
as iterated steps: no operation stops a run, so a property that every step keeps holds after any
number of steps. -/

namespace Sys2Proof.Machine

/-! ## The configuration check -/

/-- The six inequalities of the check are pairwise distinctness (00_scope.md R4). -/
theorem pinAssignment_wf_iff_nodup (p : PinAssignment) :
    p.wf = true ↔ [p.a1, p.b1, p.a2, p.b2].Nodup := by
  simp [PinAssignment.wf, and_assoc]

/-- The check answers a configuration exactly for that configuration's own parameters. -/
theorem config_check_eq_some_iff (p : PinAssignment) (n : Nat) (cfg : Config) :
    Config.check p n = some cfg ↔ cfg.pins = p ∧ cfg.ppr = n := by
  constructor
  · intro h
    unfold Config.check at h
    split at h
    · split at h
      · cases h
        exact ⟨rfl, rfl⟩
      · cases h
    · cases h
  · rintro ⟨rfl, rfl⟩
    simp [Config.check, cfg.pins_wf, cfg.ppr_pos]

/-- Settles O1: an accepted configuration carries the proof of the check, and parameters that pass
the check make a configuration. -/
theorem configurationCheckIsPairwiseDistinct :
    Obligations.ConfigurationCheckIsPairwiseDistinct := by
  refine ⟨fun p n => ⟨?_, ?_⟩, fun cfg => (pinAssignment_wf_iff_nodup cfg.pins).1 cfg.pins_wf⟩
  · rintro ⟨cfg, -, rfl, rfl⟩
    exact ⟨(pinAssignment_wf_iff_nodup cfg.pins).1 cfg.pins_wf, cfg.ppr_pos⟩
  · rintro ⟨hdistinct, hpos⟩
    have hwf : p.wf = true := (pinAssignment_wf_iff_nodup p).2 hdistinct
    exact ⟨⟨p, n, hwf, hpos⟩, (config_check_eq_some_iff p n _).2 ⟨rfl, rfl⟩, rfl, rfl⟩

/-! ## The operations as equations -/

@[simp] theorem exec_rdpos (c : Chan) (s : State) :
    exec (.rdpos c) s = .next (s.respond (.bytes (le32 (s.memRead c)))) := rfl

@[simp] theorem exec_rstpos (c : Chan) (s : State) :
    exec (.rstpos c) s = .next (s.memWrite c 0) := rfl

@[simp] theorem exec_addpos (c : Chan) (imm : Position) (s : State) :
    exec (.addpos c imm) s = .next (s.memWrite c (add32 (s.memRead c) imm)) := rfl

@[simp] theorem exec_tglirq (s : State) :
    exec .tglirq s =
      .next (((s.setIntEn (!s.intEn)).driveEnables (!s.intEn)).respond (.bit (!s.intEn))) := rfl

@[simp] theorem exec_tglrpt (s : State) :
    exec .tglrpt s = .next (s.setActRpt (!s.actRpt)) := rfl

@[simp] theorem exec_unrec (b : Byte) (s : State) : exec (.unrec b) s = .next s := rfl

@[simp] theorem exec_edge (g : PinId) (k : EdgeKind) (s : State) :
    exec (.edge g k) s = execEdge g k s := rfl

/-- Every operation completes in every state (60_exceptions.md R120). -/
theorem exec_total (i : Instr) (s : State) : ∃ t, exec i s = .next t := by
  cases i with
  | rdpos c => exact ⟨_, exec_rdpos c s⟩
  | rstpos c => exact ⟨_, exec_rstpos c s⟩
  | addpos c imm => exact ⟨_, exec_addpos c imm s⟩
  | tglirq => exact ⟨_, exec_tglirq s⟩
  | tglrpt => exact ⟨_, exec_tglrpt s⟩
  | unrec b => exact ⟨_, exec_unrec b s⟩
  | edge g k =>
    rcases execEdge_cases g k s with ⟨-, h⟩ | ⟨_, -, -, h⟩ | ⟨_, -, -, h⟩ <;> exact ⟨_, h⟩

/-! ## Steps and runs -/

/-- What a step that answers `t` has done: a fetch alone, or a fetch and the operation it brought. -/
theorem step_cases {s t : State} (h : step s = .next t) :
    s.fetch = .quiet t ∨ ∃ i u, s.fetch = .run i u ∧ exec i u = .next t := by
  cases hf : s.fetch with
  | quiet u =>
    rw [step_of_quiet s u hf] at h
    cases h
    exact .inl rfl
  | run i u =>
    rw [step_of_run s u i hf] at h
    exact .inr ⟨i, u, rfl, h⟩

/-- Every state has a next state (60_exceptions.md R120). -/
theorem step_total (s : State) : ∃ t, step s = .next t := by
  cases hf : s.fetch with
  | quiet u => exact ⟨u, step_of_quiet s u hf⟩
  | run i u =>
    rw [step_of_run s u i hf]
    exact exec_total i u

theorem run_succ_of_step (n : Nat) {s t : State} (h : step s = .next t) :
    Host.Core.run Sys2Proof.core (n + 1) s = Host.Core.run Sys2Proof.core n t := by
  have hcore : Host.Core.step Sys2Proof.core s = .next t := h
  simp only [Host.Core.run]
  rw [hcore]

/-- No run stops. -/
theorem run_total (n : Nat) (s : State) : ∃ t, Host.Core.run Sys2Proof.core n s = .next t := by
  induction n generalizing s with
  | zero => exact ⟨s, rfl⟩
  | succ n ih =>
    obtain ⟨u, hu⟩ := step_total s
    rw [run_succ_of_step n hu]
    exact ih u

/-- A run is its first step and then the rest. -/
theorem after_succ (n : Nat) {s t : State} (h : step s = .next t) :
    after (n + 1) s = after n t :=
  after_succ_of_step n s t h (run_total n t)

/-- What every step keeps holds after any number of steps. -/
theorem after_invariant {P : State → Prop} (hstep : ∀ s t, P s → step s = .next t → P t)
    (n : Nat) (s : State) (hs : P s) : P (after n s) := by
  induction n generalizing s with
  | zero => exact hs
  | succ n ih =>
    obtain ⟨t, ht⟩ := step_total s
    rw [after_succ n ht]
    exact ih t (hstep s t hs ht)

/-! ## Nothing writes the configuration -/

/-- The state a fetch leaves, whether or not it brings an operation. -/
def Fetched.state : Fetched → State
  | .quiet t => t
  | .run _ t => t

theorem config_fetch (s : State) : s.fetch.state.config = s.config := by
  rcases s.fetch_cases with ⟨-, h⟩ | ⟨_, _, _, _, -, -, h⟩ | ⟨_, _, _, -, -, h⟩ | ⟨_, _, -, h⟩ |
    ⟨_, _, _, -, h⟩ | ⟨_, -, h⟩ <;> simp [h, Fetched.state]

theorem config_exec {i : Instr} {s t : State} (h : exec i s = .next t) : t.config = s.config := by
  cases i with
  | rdpos c => cases h; simp
  | rstpos c => cases h; simp
  | addpos c imm => cases h; simp
  | tglirq => cases h; simp
  | tglrpt => cases h; simp
  | unrec b => cases h; rfl
  | edge g k =>
    rw [exec_edge] at h
    rcases execEdge_cases g k s with ⟨-, e⟩ | ⟨c, -, -, e⟩ | ⟨c, -, -, e⟩ <;>
      (rw [e] at h; cases h; simp)

/-- No step writes the configuration: neither taking an arrival nor running an operation does. -/
theorem config_step {s t : State} (h : step s = .next t) : t.config = s.config := by
  have hfetch := config_fetch s
  rcases step_cases h with hf | ⟨i, u, hf, hexec⟩
  · simpa [hf, Fetched.state] using hfetch
  · rw [config_exec hexec]
    simpa [hf, Fetched.state] using hfetch

/-- Settles O2: by induction over the run, a step at a time. -/
theorem configurationNeverChanges : Obligations.ConfigurationNeverChanges := by
  intro n s
  have hstep : ∀ u t : State, u.config = s.config → step u = .next t → t.config = s.config :=
    fun _ _ hu ht => (config_step ht).trans hu
  exact after_invariant hstep n s rfl

end Sys2Proof.Machine
end

section
/-! SUPPORT. How far one UPDATE moves a position, what an operation on one channel does not see of the
other, and what the reset input leaves. -/

namespace Sys2Proof.Machine

/-! ## One UPDATE -/

/-- Adding a direction's addend is adding its integer, modulo the wrap (40_quadrature_decode.md R76). -/
theorem toInt_add_addend (v : Position) (d : Direction) :
    (v + d.addend).toInt = (v.toInt + d.toInt).bmod (2 ^ 32) := by
  rw [BitVec.toInt_add, Direction.addend_eq_ofInt, BitVec.toInt_ofInt, Int.add_bmod_bmod]

theorem toInt_memRead_update (s : State) (c : Chan) (a b : Bool) :
    ((s.update c a b).memRead c).toInt =
      ((s.memRead c).toInt + (dir (s.history c).1 (s.history c).2 a b).toInt).bmod (2 ^ 32) := by
  rw [State.memRead_update_same, toInt_add_addend]

/-- A valid transition is no duplicate, so its direction is not 0. -/
theorem dir_ne_hold_of_validTransition {p : Bool × Bool} {a b : Bool}
    (h : validTransition p (a, b) = true) : dir p.1 p.2 a b ≠ .hold := by
  intro hhold
  have hdup : (a, b) = p := (dir_hold p.1 p.2 a b).1 hhold
  subst hdup
  simp [validTransition] at h

theorem Direction.toInt_eq_zero_iff (d : Direction) : d.toInt = 0 ↔ d = .hold := by
  cases d <;> decide

/-- Settles O5: the integer is the one DIR gives, and away from the two ends of the range the sum of
the two needs no wrap. -/
theorem updateMovesPositionByAtMostOne : Obligations.UpdateMovesPositionByAtMostOne := by
  intro s c a b
  have hmove := toInt_memRead_update s c a b
  obtain ⟨hlow, hhigh⟩ := (dir (s.history c).1 (s.history c).2 a b).toInt_bound
  refine ⟨_, by omega, hmove, fun hvalid hzero => ?_, fun hmin hmax => ?_⟩
  · exact dir_ne_hold_of_validTransition hvalid ((Direction.toInt_eq_zero_iff _).1 hzero)
  · rw [hmove]
    exact Int.bmod_eq_of_le (by omega) (by omega)

/-! ## The other channel -/

/-- The operations that act on channel `c`: the three position accesses, and EDGE of one of its pins. -/
theorem instrChannel_eq_some {cfg : Config} {i : Instr} {c : Chan}
    (h : instrChannel cfg i = some c) :
    i = .rdpos c ∨ i = .rstpos c ∨ (∃ imm, i = .addpos c imm) ∨
      ∃ g k, i = .edge g k ∧ route cfg g = some c := by
  cases i with
  | rdpos e => cases h; exact .inl rfl
  | rstpos e => cases h; exact .inr (.inl rfl)
  | addpos e imm => cases h; exact .inr (.inr (.inl ⟨imm, rfl⟩))
  | tglirq => cases h
  | tglrpt => cases h
  | unrec b => cases h
  | edge g k => exact .inr (.inr (.inr ⟨g, k, rfl, h⟩))

/-- EDGE of a pin of channel `c` serves `c` where the event port takes the event, and does nothing
where it does not (41_interrupt_router.md R81, R85). -/
theorem execEdge_of_route {g : PinId} {c : Chan} (k : EdgeKind) {s : State}
    (h : route s.config g = some c) :
    execEdge g k s =
      .next (if s.intEn then s.update c (s.sample c).1 (s.sample c).2 else s) := by
  rcases execEdge_cases g k s with ⟨hnone, -⟩ | ⟨e, -, hoff, hexec⟩ | ⟨e, hroute, hon, hexec⟩
  · cases hnone.symm.trans h
  · simp [hexec, hoff]
  · cases hroute.symm.trans h
    simp [hexec, hon]

@[simp] theorem State.memRead_respond (s : State) (r : HostResult) (c : Chan) :
    (s.respond r).memRead c = s.memRead c := by simp [State.memRead]

@[simp] theorem State.memRead_setChan_other (s : State) (c d : Chan) (x : Channel) (h : d ≠ c) :
    (s.setChan c x).memRead d = s.memRead d := by simp [State.memRead, h]

@[simp] theorem State.sample_setChan (s : State) (c d : Chan) (x : Channel) :
    (s.setChan d x).sample c = s.sample c := by simp [State.sample, State.pin]

theorem State.respond_setChan (s : State) (r : HostResult) (d : Chan) (x : Channel) :
    (s.setChan d x).respond r = (s.respond r).setChan d x := by cases d <;> rfl

theorem State.memWrite_setChan_other (s : State) (c d : Chan) (v : Position) (x : Channel)
    (h : d ≠ c) : (s.setChan d x).memWrite c v = (s.memWrite c v).setChan d x := by
  simp [State.memWrite, h.symm, State.setChan_comm s c d _ x h]

theorem State.update_setChan_other (s : State) (c d : Chan) (a b : Bool) (x : Channel)
    (h : d ≠ c) : (s.setChan d x).update c a b = (s.update c a b).setChan d x := by
  simp [State.update, h.symm, State.setChan_comm s c d _ x h]

/-- An operation on channel `c` does not write the other channel. -/
theorem chan_exec_other {i : Instr} {s t : State} {c d : Chan}
    (hi : instrChannel s.config i = some c) (hd : d ≠ c) (h : exec i s = .next t) :
    t.chan d = s.chan d := by
  rcases instrChannel_eq_some hi with rfl | rfl | ⟨imm, rfl⟩ | ⟨g, k, rfl, hroute⟩
  · cases h; simp
  · cases h; simp [hd]
  · cases h; simp [hd]
  · rw [exec_edge, execEdge_of_route k hroute] at h
    cases h
    split <;> simp [hd]

/-- An operation on channel `c` does not read the other channel: it commutes with any write there. -/
theorem exec_setChan_other {i : Instr} {s t : State} {c d : Chan} (x : Channel)
    (hi : instrChannel s.config i = some c) (hd : d ≠ c) (h : exec i s = .next t) :
    exec i (s.setChan d x) = .next (t.setChan d x) := by
  rcases instrChannel_eq_some hi with rfl | rfl | ⟨imm, rfl⟩ | ⟨g, k, rfl, hroute⟩
  · cases h; simp [hd.symm, State.respond_setChan]
  · cases h; simp [State.memWrite_setChan_other _ _ _ _ _ hd]
  · cases h; simp [hd.symm, State.memWrite_setChan_other _ _ _ _ _ hd]
  · have hroute' : route (s.setChan d x).config g = some c := by simpa using hroute
    rw [exec_edge, execEdge_of_route k hroute] at h
    cases h
    rw [exec_edge, execEdge_of_route k hroute', State.intEn_setChan, State.sample_setChan,
      State.update_setChan_other _ _ _ _ _ _ hd, apply_ite (State.setChan · d x)]

/-- Settles O6: the frame and the commutation with a write to the other channel. -/
theorem channelsAreIndependent : Obligations.ChannelsAreIndependent :=
  fun _ _ _ _ _ x hi hd h => ⟨chan_exec_other hi hd h, exec_setChan_other x hi hd h⟩

/-! ## The reset input -/

@[simp] theorem State.chan_reset (c : Chan) : State.reset.chan c = Channel.reset := by
  cases c <;> rfl

/-- The step that takes the reset input. -/
theorem step_of_reset {s : State} {rest : List Arrival} (h : s.arrivals = .reset :: rest) :
    step s = .next { s with arrivals := rest }.restart :=
  step_of_quiet s _ (by simp [State.fetch, h, State.receive])

/-- A channel with the reset value reads position 0 and history 00 (10_state.md R24). -/
theorem memRead_history_of_chan_reset {s : State} {c : Chan} (h : s.chan c = Channel.reset) :
    s.memRead c = 0 ∧ s.history c = (false, false) := by
  simp [State.memRead, State.history, h, Channel.reset]

/-- Settles O8: the reset state by its definition, the reset input by what `restart` writes and what
it leaves. -/
theorem resetLeavesEveryBitZero : Obligations.ResetLeavesEveryBitZero := by
  refine ⟨fun c => memRead_history_of_chan_reset (State.chan_reset c), rfl, rfl, ?_⟩
  intro s rest harr
  refine ⟨_, step_of_reset harr, fun c => ?_, State.intEn_restart _, State.actRpt_restart _,
    State.pins_restart _, State.config_restart _, State.arrivals_restart _⟩
  exact memRead_history_of_chan_reset (State.chan_restart _ c)

end Sys2Proof.Machine
end

section
/-! SUPPORT. The decoder as equations: which first bytes a masked row of the opcode map stands for, one
equation of `decodeHost` per row of 30_encoding.md R58, the bytes it takes, the value of an operand, and
the fields of an event word. -/

namespace Sys2Proof.Machine

/-! ## The rows of the opcode map that take a channel -/

/-- A byte is its upper seven bits with its channel select put back (30_encoding.md R56). -/
theorem and_mask_add_chanBit_chanSelect (b : Byte) : (b &&& 0xFE) + chanBit (chanSelect b) = b := by
  revert b
  decide

/-- Adding a channel select to an even opcode byte leaves the masked bits alone. -/
theorem add_chanBit_and_mask {opc : Byte} (heven : opc &&& 0xFE = opc) (c : Chan) :
    (opc + chanBit c) &&& 0xFE = opc := by
  cases c with
  | one => simpa [chanBit] using heven
  | two =>
    revert opc
    decide

/-- A match with mask 0xFE is a match with one of the row's two bytes (30_encoding.md R58). -/
theorem inGroup_iff {opc : Byte} (heven : opc &&& 0xFE = opc) (b : Byte) :
    inGroup b opc = true ↔ ∃ c, b = opc + chanBit c := by
  rw [inGroup, beq_iff_eq]
  constructor
  · intro hmask
    refine ⟨chanSelect b, ?_⟩
    rw [← hmask, and_mask_add_chanBit_chanSelect]
  · rintro ⟨c, rfl⟩
    exact add_chanBit_and_mask heven c

theorem inGroup_opcAddpos_iff (b : Byte) : inGroup b opcAddpos = true ↔ b = 0x30 ∨ b = 0x31 := by
  rw [inGroup_iff rfl]
  constructor
  · rintro ⟨_ | _, rfl⟩
    · exact .inl rfl
    · exact .inr rfl
  · rintro (rfl | rfl)
    · exact ⟨.one, rfl⟩
    · exact ⟨.two, rfl⟩

theorem hostLength_eq (b : Byte) : hostLength b = if b = 0x30 ∨ b = 0x31 then 5 else 1 := by
  simp only [hostLength, inGroup_opcAddpos_iff]

/-! ## One equation per row of the first byte's map -/

theorem decodeHost_rdpos (c : Chan) (rest : List Byte) :
    decodeHost ((opcRdpos + chanBit c) :: rest) = .ok (.rdpos c, rest) := by
  cases c <;> rfl

theorem decodeHost_rstpos (c : Chan) (rest : List Byte) :
    decodeHost ((opcRstpos + chanBit c) :: rest) = .ok (.rstpos c, rest) := by
  cases c <;> rfl

theorem decodeHost_addpos (c : Chan) (b1 b2 b3 b4 : Byte) (rest : List Byte) :
    decodeHost ((opcAddpos + chanBit c) :: b1 :: b2 :: b3 :: b4 :: rest) =
      .ok (.addpos c (unle32 b1 b2 b3 b4), rest) := by
  cases c <;> rfl

/-- The bytes of an immediate after an ADDPOS opcode byte are read back as that immediate. -/
theorem decodeHost_addpos_le32 (c : Chan) (imm : Position) (rest : List Byte) :
    decodeHost ((opcAddpos + chanBit c) :: (le32 imm ++ rest)) = .ok (.addpos c imm, rest) := by
  have hbytes := decodeHost_addpos c (imm.extractLsb' 0 8) (imm.extractLsb' 8 8)
    (imm.extractLsb' 16 8) (imm.extractLsb' 24 8) rest
  rwa [unle32_le32] at hbytes

theorem decodeHost_tglirq (rest : List Byte) :
    decodeHost (opcTglirq :: rest) = .ok (.tglirq, rest) := rfl

theorem decodeHost_tglrpt (rest : List Byte) :
    decodeHost (opcTglrpt :: rest) = .ok (.tglrpt, rest) := rfl

/-- A byte that is not assigned is in no row with a channel. -/
theorem inGroup_eq_false_of_not_assigned {opc b : Byte} (heven : opc &&& 0xFE = opc)
    (hrow : ∀ c, opc + chanBit c ∈ assignedBytes) (hb : b ∉ assignedBytes) :
    inGroup b opc = false := by
  rw [Bool.eq_false_iff]
  intro hin
  obtain ⟨c, rfl⟩ := (inGroup_iff heven b).1 hin
  exact hb (hrow c)

/-- Every byte outside the eight assigned ones is UNREC (30_encoding.md R59). -/
theorem decodeHost_unrec {b : Byte} (hb : b ∉ assignedBytes) (rest : List Byte) :
    decodeHost (b :: rest) = .ok (.unrec b, rest) := by
  have hrdpos : inGroup b opcRdpos = false :=
    inGroup_eq_false_of_not_assigned rfl (fun c => by cases c <;> decide) hb
  have hrstpos : inGroup b opcRstpos = false :=
    inGroup_eq_false_of_not_assigned rfl (fun c => by cases c <;> decide) hb
  have haddpos : inGroup b opcAddpos = false :=
    inGroup_eq_false_of_not_assigned rfl (fun c => by cases c <;> decide) hb
  have htglirq : b ≠ opcTglirq := by
    rintro rfl
    exact hb (by decide)
  have htglrpt : b ≠ opcTglrpt := by
    rintro rfl
    exact hb (by decide)
  simp [decodeHost, hrdpos, hrstpos, haddpos, htglirq, htglrpt]

/-- Settles O10: each row of the map by its own equation of the decoder. -/
theorem firstByteMapIsComplete : Obligations.FirstByteMapIsComplete :=
  ⟨fun w => ⟨eventGpio w, eventKind w, rfl⟩, fun rest =>
    ⟨decodeHost_rdpos .one rest, decodeHost_rdpos .two rest,
     decodeHost_rstpos .one rest, decodeHost_rstpos .two rest,
     fun imm => decodeHost_addpos_le32 .one imm rest,
     fun imm => decodeHost_addpos_le32 .two imm rest,
     decodeHost_tglirq rest, decodeHost_tglrpt rest,
     fun _ hb => decodeHost_unrec hb rest⟩⟩

/-! ## How many bytes an operation takes -/

/-- Outside the ADDPOS row the first byte alone is an operation. -/
theorem decodeHost_of_not_addpos {b : Byte} (hb : inGroup b opcAddpos = false) (rest : List Byte) :
    ∃ i, decodeHost (b :: rest) = .ok (i, rest) := by
  simp only [decodeHost, hb, Bool.false_eq_true, if_false]
  split_ifs <;> exact ⟨_, rfl⟩

/-- An ADDPOS opcode byte with fewer than four bytes behind it waits (30_encoding.md R57). -/
theorem decodeHost_addpos_waits (c : Chan) {rest : List Byte} (hshort : rest.length < 4) :
    decodeHost ((opcAddpos + chanBit c) :: rest) = .error .operandBytes := by
  match rest, hshort with
  | [], _ | [_], _ | [_, _], _ | [_, _, _], _ => cases c <;> rfl
  | _ :: _ :: _ :: _ :: _, hlong =>
    simp only [List.length_cons] at hlong
    omega

/-- With a first byte there, either bytes of its operation are missing and the port waits, or an
operation of exactly that length is taken (30_encoding.md R54, R57). -/
theorem decodeHost_cons_cases (b : Byte) (rest : List Byte) :
    ((b :: rest).length < hostLength b ∧ decodeHost (b :: rest) = .error .operandBytes) ∨
    (hostLength b ≤ (b :: rest).length ∧
      ∃ i, decodeHost (b :: rest) = .ok (i, (b :: rest).drop (hostLength b))) := by
  cases hb : inGroup b opcAddpos with
  | false =>
    have hlen : hostLength b = 1 := by simp [hostLength, hb]
    obtain ⟨i, hi⟩ := decodeHost_of_not_addpos hb rest
    exact .inr ⟨by simp [hlen], i, by simpa [hlen] using hi⟩
  | true =>
    have hlen : hostLength b = 5 := by simp [hostLength, hb]
    obtain ⟨c, rfl⟩ := (inGroup_iff rfl b).1 hb
    rw [hlen]
    match rest with
    | b1 :: b2 :: b3 :: b4 :: rest =>
      exact .inr ⟨by simp, _, decodeHost_addpos c b1 b2 b3 b4 rest⟩
    | [] | [_] | [_, _] | [_, _, _] =>
      exact .inl ⟨by simp, decodeHost_addpos_waits c (by simp)⟩

/-- Settles O11: the table's two lengths are `hostLength`, and the decoder's two answers exclude each
other. -/
theorem firstByteDecidesTheLength : Obligations.FirstByteDecidesTheLength := by
  intro b rest
  rw [← hostLength_eq]
  rcases decodeHost_cons_cases b rest with ⟨hmissing, hwait⟩ | ⟨hthere, i, hrun⟩
  · exact ⟨fun i left hok => by simp [hwait] at hok, fun _ => hmissing, fun _ => ⟨_, hwait⟩⟩
  · refine ⟨fun j left hok => ?_, fun ⟨e, he⟩ => by simp [hrun] at he, fun hmissing => by omega⟩
    rw [hrun] at hok
    cases hok
    rfl

/-! ## The operand of ADDPOS -/

/-- Concatenation is addition: the upper vector counts in units of the lower one's range. -/
theorem toNat_append_eq_add {m n : Nat} (x : BitVec m) (y : BitVec n) :
    (x ++ y).toNat = 2 ^ n * x.toNat + y.toNat := by
  rw [BitVec.toNat_append, ← Nat.shiftLeft_add_eq_or_of_lt y.isLt, Nat.shiftLeft_eq, Nat.mul_comm]

/-- The number that four little-endian bytes spell (20_memory.md R33). -/
theorem toNat_unle32 (b1 b2 b3 b4 : Byte) :
    (unle32 b1 b2 b3 b4).toNat =
      b1.toNat + 256 * b2.toNat + 65536 * b3.toNat + 16777216 * b4.toNat := by
  simp only [unle32, toNat_append_eq_add]
  omega

/-- Settles O12: the operand is `unle32` of the four bytes, with no case split on their values. -/
theorem addposOperandIsFourLittleEndianBytes :
    Obligations.AddposOperandIsFourLittleEndianBytes :=
  fun b1 b2 b3 b4 rest =>
    ⟨unle32 b1 b2 b3 b4, toNat_unle32 b1 b2 b3 b4,
     decodeHost_addpos .one b1 b2 b3 b4 rest, decodeHost_addpos .two b1 b2 b3 b4 rest⟩

/-! ## Event words -/

theorem eventGpio_eq_ofNat (w : EventWord) : eventGpio w = BitVec.ofNat 8 w.toNat := by
  rw [eventGpio, BitVec.ofNat_toNat, BitVec.setWidth_eq_extractLsb' (by decide)]

theorem eventKind_eq_of_bits (w : EventWord) :
    eventKind w =
      if w.toNat.testBit 9 then (if w.toNat.testBit 8 then .both else .rise)
      else (if w.toNat.testBit 8 then .fall else .none) := by
  rw [eventKind, BitVec.testBit_toNat, BitVec.testBit_toNat]
  cases w.getLsbD 9 <;> cases w.getLsbD 8 <;> rfl

theorem decodeEvent_eq (w : EventWord) :
    decodeEvent w = .edge (BitVec.ofNat 8 w.toNat)
      (if w.toNat.testBit 9 then (if w.toNat.testBit 8 then .both else .rise)
       else (if w.toNat.testBit 8 then .fall else .none)) := by
  rw [decodeEvent, eventGpio_eq_ofNat, eventKind_eq_of_bits]

/-- Bits below the tenth are those of the remainder, so words that agree there agree on each of them. -/
theorem testBit_eq_of_mod_1024_eq {m n : Nat} (h : m % 1024 = n % 1024) {i : Nat} (hi : i < 10) :
    m.testBit i = n.testBit i := by
  have hmod (k : Nat) : (k % 1024).testBit i = k.testBit i := by
    simpa [hi] using Nat.testBit_mod_two_pow k 10 i
  rw [← hmod m, h, hmod n]

/-- The fields of an event word lie in its low ten bits (30_encoding.md R53). -/
theorem decodeEvent_congr {w w' : EventWord} (h : w.toNat % 1024 = w'.toNat % 1024) :
    decodeEvent w = decodeEvent w' := by
  have hgpio : BitVec.ofNat 8 w.toNat = BitVec.ofNat 8 w'.toNat := by
    apply BitVec.eq_of_toNat_eq
    rw [BitVec.toNat_ofNat, BitVec.toNat_ofNat]
    omega
  rw [decodeEvent_eq, decodeEvent_eq, hgpio,
    testBit_eq_of_mod_1024_eq h (show 9 < 10 by decide),
    testBit_eq_of_mod_1024_eq h (show 8 < 10 by decide)]

/-- Settles O13: each field as a function of the word's number, and of its low ten bits only. -/
theorem eventWordFieldsAreRead : Obligations.EventWordFieldsAreRead :=
  ⟨decodeEvent_eq, fun _ _ => decodeEvent_congr⟩

end Sys2Proof.Machine
end

section
/-! SUPPORT. The transition function as a table, as masks and as a closed form, what it counts along the
forward order and against it, and what one UPDATE does to the position at the ends of its range and to
the history. -/

namespace Sys2Proof.Machine

/-! ## The transition table -/

theorem tableIndex_lt (la lb a b : Bool) : tableIndex la lb a b < 16 := by
  have hla := la.toNat_lt
  have hlb := lb.toNat_lt
  have ha := a.toNat_lt
  have hb := b.toNat_lt
  unfold tableIndex
  omega

theorem dirTable_tableIndex (la lb a b : Bool) :
    dirTable[tableIndex la lb a b]? = some (dir la lb a b) := by
  revert la lb a b
  decide

/-- The mask of R71 with the rows that hold a direction: bit `i` stands for row `i`. -/
def dirMask : Direction → Nat
  | .up => 0x2A54
  | .down => 0x518A
  | .hold => 0x8421

theorem dirTable_getElem?_eq_some_iff (d : Direction) {i : Nat} (hi : i < 16) :
    dirTable[i]? = some d ↔ (dirMask d).testBit i = true := by
  revert i
  cases d <;> decide

/-- The mask of a direction holds exactly the indices where DIR gives it. -/
theorem dir_eq_iff_testBit_dirMask (d : Direction) (la lb a b : Bool) :
    dir la lb a b = d ↔ (dirMask d).testBit (tableIndex la lb a b) = true := by
  rw [← dirTable_getElem?_eq_some_iff d (tableIndex_lt la lb a b), dirTable_tableIndex,
    Option.some_inj]

/-- The closed form of R71, branch by branch: on a change of A by the new levels alone, otherwise on a
change of B by the new levels alone. -/
theorem dir_eq_closed_form (la lb a b : Bool) :
    dir la lb a b =
      (if (a, b) = (la, lb) then .hold
       else if a ≠ la then (if (a ^^ b) = true then .up else .down)
       else (if (a ^^ b) = false then .up else .down)) := by
  by_cases ha : a = la
  · by_cases hb : b = lb <;> simp [dir, ha, hb]
  · simp [dir, ha, Ne.symm ha, bne_comm]

/-- Settles O21: each row is checked once against DIR; the three masks then follow from the rows. -/
theorem transitionTableIsDir : Obligations.TransitionTableIsDir :=
  ⟨by decide, fun la lb a b =>
    ⟨dirTable_tableIndex la lb a b, dir_eq_iff_testBit_dirMask .up la lb a b,
     dir_eq_iff_testBit_dirMask .down la lb a b, dir_eq_iff_testBit_dirMask .hold la lb a b,
     dir_eq_closed_form la lb a b⟩⟩

/-! ## The forward order -/

theorem dir_forwardNext (p : Bool × Bool) :
    dir p.1 p.2 (forwardNext p).1 (forwardNext p).2 = .up := by
  revert p
  decide

theorem dir_of_forwardNext (p : Bool × Bool) :
    dir (forwardNext p).1 (forwardNext p).2 p.1 p.2 = .down := by
  revert p
  decide

theorem dirSum_nil (p : Bool × Bool) : dirSum p [] = 0 := rfl

theorem dirSum_cons (p q : Bool × Bool) (rest : List (Bool × Bool)) :
    dirSum p (q :: rest) = (dir p.1 p.2 q.1 q.2).toInt + dirSum q rest := rfl

theorem dirSum_cons_forwardNext (p : Bool × Bool) (rest : List (Bool × Bool)) :
    dirSum p (forwardNext p :: rest) = 1 + dirSum (forwardNext p) rest := by
  rw [dirSum_cons, dir_forwardNext, Direction.toInt]

theorem dirSum_forwardNext_cons (p : Bool × Bool) (rest : List (Bool × Bool)) :
    dirSum (forwardNext p) (p :: rest) = -1 + dirSum p rest := by
  rw [dirSum_cons, dir_of_forwardNext, Direction.toInt]

/-- Four forward transitions count 4, from whichever pin state they start. -/
theorem dirSum_forward_cycle (p : Bool × Bool) :
    dirSum p [forwardNext p, forwardNext (forwardNext p), forwardNext (forwardNext (forwardNext p)),
      forwardNext (forwardNext (forwardNext (forwardNext p)))] = 4 := by
  simp [dirSum_cons_forwardNext, dirSum_nil]

/-- The same four transitions read backwards count -4. -/
theorem dirSum_reverse_cycle (p : Bool × Bool) :
    dirSum (forwardNext (forwardNext (forwardNext (forwardNext p))))
      [forwardNext (forwardNext (forwardNext p)), forwardNext (forwardNext p), forwardNext p, p] =
        -4 := by
  simp [dirSum_forwardNext_cons, dirSum_nil]

/-- Settles O22: the two cycles are those that pass through 00. -/
theorem forwardCycleCountsUp : Obligations.ForwardCycleCountsUp :=
  ⟨⟨rfl, rfl, rfl, rfl⟩, fun p => ⟨dir_forwardNext p, dir_of_forwardNext p⟩,
   dirSum_forward_cycle (false, false), dirSum_reverse_cycle (false, false)⟩

/-! ## Duplicates and the history -/

/-- UPDATE with the levels the history already holds adds 0 and rewrites what is there
(40_quadrature_decode.md R74). -/
theorem State.update_of_eq_history {s : State} {c : Chan} {a b : Bool}
    (hdup : (a, b) = s.history c) : s.update c a b = s := by
  have hhold : dir (s.chan c).lastA (s.chan c).lastB a b = .hold := (dir_hold _ _ _ _).2 hdup
  obtain ⟨rfl, rfl⟩ := Prod.mk.inj hdup
  rw [State.update, hhold, Direction.addend, add32, add_zero]
  exact State.setChan_chan s c

/-- Settles O23: the direction by `dir_hold`, the state by the duplicate rule. -/
theorem duplicateEventChangesNothing : Obligations.DuplicateEventChangesNothing :=
  fun _ _ _ _ => ⟨dir_hold _ _ _ _, State.update_of_eq_history⟩

/-- Settles O26: the recorded levels make the second UPDATE a duplicate. -/
theorem everyUpdateRecordsTheLevels : Obligations.EveryUpdateRecordsTheLevels := by
  intro s c a b
  have hrecorded : (s.update c a b).history c = (a, b) := State.history_update_same s c a b
  exact ⟨hrecorded, State.update_of_eq_history hrecorded.symm⟩

/-! ## The ends of the range -/

/-- Settles O25: a sum in range is its own remainder modulo 2^32; at the ends the 32-bit addition is
evaluated. -/
theorem incrementWrapsAtTheEnds : Obligations.IncrementWrapsAtTheEnds := by
  intro s c a b
  have hpos := State.memRead_update_same s c a b
  refine ⟨fun ⟨hlow, hhigh⟩ => ?inRange, fun hdir hmax => ?top, fun hdir hmin => ?bottom,
    fun hdir hzero => ?zero⟩
  case inRange =>
    rw [toInt_memRead_update]
    exact Int.bmod_eq_of_le (by omega) (by omega)
  case top => rw [hpos, hdir, hmax]; rfl
  case bottom => rw [hpos, hdir, hmin]; rfl
  case zero => rw [hpos, hdir, hzero]; rfl

end Sys2Proof.Machine
end

section
/-! SUPPORT. The interrupt demultiplexer: which pin ROUTE gives to which channel, what EDGE does for a
pin of a channel and for any other pin, and that no operation but TGLRPT reads `ACT_RPT`. -/

namespace Sys2Proof.Machine

/-! ## ROUTE -/

/-- A channel's two pins are routed to it and no other pin is (41_interrupt_router.md R80). -/
theorem route_eq_some_iff (cfg : Config) (g : PinId) (c : Chan) :
    route cfg g = some c ↔ (g = cfg.pinA c ∨ g = cfg.pinB c) := by
  constructor
  · exact route_some cfg g c
  · rintro (rfl | rfl)
    · exact route_pinA cfg c
    · exact route_pinB cfg c

theorem route_eq_none_iff (cfg : Config) (g : PinId) : route cfg g = none ↔ UnknownPin cfg g := by
  simp only [Option.eq_none_iff_forall_ne_some, ne_eq, route_eq_some_iff, not_or, UnknownPin]

/-- Settles O28: the owner is the channel with the pin, and a pin without one is unknown. -/
theorem routeFindsTheOwner : Obligations.RouteFindsTheOwner :=
  ⟨route_eq_some_iff, route_eq_none_iff, by decide, by decide⟩

/-! ## EDGE -/

/-- EDGE of a pin that no channel owns is a no-op (41_interrupt_router.md R82). -/
theorem execEdge_of_unknownPin {g : PinId} (k : EdgeKind) {s : State}
    (h : UnknownPin s.config g) : execEdge g k s = .next s := by
  have hnone : route s.config g = none := (route_eq_none_iff s.config g).2 h
  rcases execEdge_cases g k s with ⟨-, hexec⟩ | ⟨c, hsome, -, -⟩ | ⟨c, hsome, -, -⟩
  · exact hexec
  · cases hnone.symm.trans hsome
  · cases hnone.symm.trans hsome

/-- UPDATE writes the position and the history of its channel only (40_quadrature_decode.md R73). -/
theorem sameButChannel_update (s : State) (c : Chan) (a b : Bool) :
    SameButChannel c s (s.update c a b) :=
  ⟨fun d hd => State.chan_update_other s c d a b hd, by simp⟩

/-- Settles O29: the delivered EDGE is the UPDATE of the routed channel with the levels of its pins. -/
theorem edgeUpdatesTheRoutedChannel : Obligations.EdgeUpdatesTheRoutedChannel := by
  refine ⟨fun s g k c hon hpin => ?served, fun s g k => execEdge_of_unknownPin k, fun w => ?word⟩
  case served =>
    have hexec := execEdge_of_route k ((route_eq_some_iff s.config g c).2 hpin)
    rw [if_pos hon] at hexec
    exact ⟨_, hexec, State.history_update_same _ _ _ _, toInt_memRead_update _ _ _ _,
      sameButChannel_update _ _ _ _⟩
  case word => rw [decodeEvent, eventGpio_eq_ofNat]

/-- The step that takes an event word runs the EDGE it encodes. -/
theorem step_of_event {s : State} {w : EventWord} {rest : List Arrival}
    (h : s.arrivals = .event w :: rest) :
    step s = exec (decodeEvent w) { s with arrivals := rest } :=
  step_of_run s _ _ (by simp [State.fetch, h, State.receive])

/-- Settles O30: the word is taken, and the EDGE it encodes is a no-op. -/
theorem unknownPinEventIsANoOp : Obligations.UnknownPinEventIsANoOp := by
  intro s w rest harr hpin
  rw [step_of_event harr, decodeEvent, eventGpio_eq_ofNat, exec_edge]
  exact execEdge_of_unknownPin _ hpin

/-- EDGE depends on its pin through ROUTE alone, and not on the edge kind. -/
theorem execEdge_congr {g g' : PinId} (k k' : EdgeKind) {s : State}
    (h : route s.config g = route s.config g') : execEdge g k s = execEdge g' k' s := by
  cases hroute : route s.config g with
  | none =>
    have hroute' : route s.config g' = none := h.symm.trans hroute
    rw [execEdge_of_unknownPin k ((route_eq_none_iff _ _).1 hroute),
      execEdge_of_unknownPin k' ((route_eq_none_iff _ _).1 hroute')]
  | some c => rw [execEdge_of_route k hroute, execEdge_of_route k' (h.symm.trans hroute)]

theorem execAll_cons {i : Instr} {s t : State} (is : List Instr) (h : exec i s = .next t) :
    execAll (i :: is) s = execAll is t := by
  rw [execAll, h]

/-- Settles O32: in each order both notifications are, one after the other, the same step, since the
first one leaves the configuration that routes the second. -/
theorem pinRoleAndEdgeKindDoNotMatter : Obligations.PinRoleAndEdgeKindDoNotMatter := by
  refine ⟨fun s c k k' => ?role, fun s g g' k k' c hg hg' => ?order⟩
  case role => exact execEdge_congr k k' ((route_pinA _ c).trans (route_pinB _ c).symm)
  case order =>
    have hroute : route s.config g = route s.config g' := hg.trans hg'.symm
    obtain ⟨t, ht⟩ := exec_total (.edge g k) s
    obtain ⟨u, hu⟩ := exec_total (.edge g' k') t
    have ht' : exec (.edge g' k') s = .next t := (execEdge_congr k' k hroute.symm).trans ht
    have hroute_t : route t.config g = route t.config g' := by rw [config_exec ht, hroute]
    have hu' : exec (.edge g k) t = .next u := (execEdge_congr k k' hroute_t).trans hu
    rw [execAll_cons _ ht, execAll_cons _ hu, execAll_cons _ ht', execAll_cons _ hu']

/-! ## ACT_RPT -/

@[simp] theorem State.memRead_setActRpt (s : State) (v : Bool) (c : Chan) :
    (s.setActRpt v).memRead c = s.memRead c := by simp [State.memRead]

@[simp] theorem State.sample_setActRpt (s : State) (v : Bool) (c : Chan) :
    (s.setActRpt v).sample c = s.sample c := rfl

@[simp] theorem State.edgeEnabled_setActRpt (s : State) (v : Bool) (g : PinId) :
    (s.setActRpt v).edgeEnabled g = s.edgeEnabled g := rfl

theorem State.respond_setActRpt (s : State) (r : HostResult) (v : Bool) :
    (s.setActRpt v).respond r = (s.respond r).setActRpt v := rfl

theorem State.setIntEn_setActRpt (s : State) (e v : Bool) :
    (s.setActRpt v).setIntEn e = (s.setIntEn e).setActRpt v := rfl

theorem State.driveEnables_setActRpt (s : State) (e v : Bool) :
    (s.setActRpt v).driveEnables e = (s.driveEnables e).setActRpt v := rfl

theorem State.setChan_setActRpt (s : State) (c : Chan) (x : Channel) (v : Bool) :
    (s.setActRpt v).setChan c x = (s.setChan c x).setActRpt v := by cases c <;> rfl

theorem State.memWrite_setActRpt (s : State) (c : Chan) (p : Position) (v : Bool) :
    (s.setActRpt v).memWrite c p = (s.memWrite c p).setActRpt v := by
  simp [State.memWrite, State.setChan_setActRpt]

theorem State.update_setActRpt (s : State) (c : Chan) (a b v : Bool) :
    (s.setActRpt v).update c a b = (s.update c a b).setActRpt v := by
  simp [State.update, State.setChan_setActRpt]

/-- EDGE does not read `ACT_RPT`: the route, `INT_EN`, the sample and the UPDATE are the same. -/
theorem execEdge_setActRpt {g : PinId} {k : EdgeKind} {s t : State} (v : Bool)
    (h : execEdge g k s = .next t) : execEdge g k (s.setActRpt v) = .next (t.setActRpt v) := by
  cases hroute : route s.config g with
  | none =>
    have hpin : UnknownPin s.config g := (route_eq_none_iff _ _).1 hroute
    rw [execEdge_of_unknownPin k hpin] at h
    cases h
    exact execEdge_of_unknownPin k hpin
  | some c =>
    have hroute' : route (s.setActRpt v).config g = some c := hroute
    rw [execEdge_of_route k hroute] at h
    cases h
    rw [execEdge_of_route k hroute', State.intEn_setActRpt, State.sample_setActRpt,
      State.update_setActRpt, apply_ite (State.setActRpt · v)]

/-- Every operation but TGLRPT commutes with a write of `ACT_RPT` (41_interrupt_router.md R87). -/
theorem exec_setActRpt {i : Instr} {s t : State} (v : Bool) (hi : i ≠ .tglrpt)
    (h : exec i s = .next t) : exec i (s.setActRpt v) = .next (t.setActRpt v) := by
  cases i with
  | rdpos c => cases h; simp [State.respond_setActRpt]
  | rstpos c => cases h; simp [State.memWrite_setActRpt]
  | addpos c imm => cases h; simp [State.memWrite_setActRpt]
  | tglirq =>
    cases h
    simp [State.setIntEn_setActRpt, State.driveEnables_setActRpt, State.respond_setActRpt]
  | tglrpt => exact absurd rfl hi
  | unrec b => cases h; rfl
  | edge g k =>
    rw [exec_edge] at h ⊢
    exact execEdge_setActRpt v h

/-- Settles O34: the commutation for each operation, and an enable that does not mention the bit. -/
theorem activeReportingHasNoEffect : Obligations.ActiveReportingHasNoEffect :=
  ⟨fun _ _ _ v hi h => exec_setActRpt v hi h, State.edgeEnabled_setActRpt⟩

end Sys2Proof.Machine
end

section
/-! SUPPORT. Position access: the bytes RDPOS answers, the one cell RSTPOS and ADDPOS write, and the
host bytes of the three operations. -/

namespace Sys2Proof.Machine

/-! ## The bytes of a position -/

/-- Byte `k` of a position, by division, is the slice of eight bits that `le32` takes (20_memory.md R32). -/
theorem byteOf_eq_extractLsb' (v : Position) (k : Nat) : byteOf v k = v.extractLsb' (8 * k) 8 := by
  rw [byteOf, BitVec.extractLsb', Nat.shiftRight_eq_div_pow, Nat.pow_mul]

theorem le32_eq_byteOf (v : Position) :
    le32 v = [byteOf v 0, byteOf v 1, byteOf v 2, byteOf v 3] := by
  simp only [le32, byteOf_eq_extractLsb', Nat.mul_zero, Nat.mul_one, Nat.reduceMul]

theorem le32_zero : le32 0 = [0, 0, 0, 0] := rfl

/-! ## The host bytes of the three operations -/

/-- A transaction that begins with an operation carries that operation. -/
theorem decode_host_of_decodeHost {bs left : List Byte} {i : Instr}
    (h : decodeHost bs = .ok (i, left)) : decode (.host bs) = .ok i := by
  simp only [decode, h]

theorem decode_rdpos (c : Chan) : decode (.host [opcRdpos + chanBit c]) = .ok (.rdpos c) :=
  decode_host_of_decodeHost (decodeHost_rdpos c [])

theorem decode_rstpos (c : Chan) : decode (.host [opcRstpos + chanBit c]) = .ok (.rstpos c) :=
  decode_host_of_decodeHost (decodeHost_rstpos c [])

theorem decode_addpos (c : Chan) (imm : Position) :
    decode (.host ((opcAddpos + chanBit c) :: le32 imm)) = .ok (.addpos c imm) := by
  have hbytes := decodeHost_addpos_le32 c imm []
  rw [List.append_nil] at hbytes
  exact decode_host_of_decodeHost hbytes

/-! ## What the three operations write -/

@[simp] theorem State.history_respond (s : State) (r : HostResult) (c : Chan) :
    (s.respond r).history c = s.history c := by simp [State.history]

/-- A write of the position cell leaves the history and everything outside the channel alone
(42_position_access.md R93). -/
theorem sameButPosition_memWrite (s : State) (c : Chan) (v : Position) :
    SameButPosition c s (s.memWrite c v) :=
  ⟨⟨fun d hd => State.chan_memWrite_other s c d v hd, by simp⟩, State.history_memWrite s c c v⟩

/-- `add32` is signed addition with the wrap of two's complement (40_quadrature_decode.md R76). -/
theorem toInt_add32 (x y : Position) : (add32 x y).toInt = (x.toInt + y.toInt).bmod (2 ^ 32) :=
  BitVec.toInt_add x y

/-- A position access of channel `n` either is the read, which only responds, or is a write of
`POS[n]`. -/
theorem exec_positionAccess_cases {i : Instr} {n : Chan} (s : State)
    (hi : i = .rdpos n ∨ i = .rstpos n ∨ ∃ imm, i = .addpos n imm) :
    (∃ r, exec i s = .next (s.respond r)) ∨
      (i ≠ .rdpos n ∧ ∃ v, exec i s = .next (s.memWrite n v)) := by
  rcases hi with rfl | rfl | ⟨imm, rfl⟩
  · exact .inl ⟨_, exec_rdpos n s⟩
  · exact .inr ⟨nofun, _, exec_rstpos n s⟩
  · exact .inr ⟨nofun, _, exec_addpos n imm s⟩

/-! ## The four statements -/

/-- Settles O35: the response is `le32` of the position, whose slices are the bytes by division. -/
theorem rdposRespondsLittleEndian : Obligations.RdposRespondsLittleEndian := by
  refine ⟨fun c s => ?_, decode_rdpos .one, decode_rdpos .two⟩
  rw [exec_rdpos, le32_eq_byteOf, State.respond]

/-- Settles O36: the write of 0 keeps the history, so the next UPDATE adds its direction to 0. -/
theorem rstposZeroesThePosition : Obligations.RstposZeroesThePosition := by
  refine ⟨fun c s => ⟨s.memWrite c 0, exec_rstpos c s, State.memRead_memWrite_same s c 0,
    sameButPosition_memWrite s c 0, ?readBack, fun a b => ?nextUpdate⟩,
    decode_rstpos .one, decode_rstpos .two⟩
  case readBack => rw [exec_rdpos, State.memRead_memWrite_same, le32_zero, State.respond]
  case nextUpdate =>
    rw [State.memRead_update_same, State.memRead_memWrite_same, State.history_memWrite, zero_add,
      Direction.addend_eq_ofInt]

/-- Settles O37: the cell written holds the `add32` of the old position and the immediate. -/
theorem addposAddsModulo : Obligations.AddposAddsModulo := by
  refine ⟨fun c imm s => ⟨_, exec_addpos c imm s, ?sum, sameButPosition_memWrite s c _⟩,
    fun imm => ⟨decode_addpos .one imm, decode_addpos .two imm⟩⟩
  case sum => rw [State.memRead_memWrite_same, toInt_add32]

/-- Settles O38: a response touches no channel and no control bit, a write of `POS[n]` only `POS[n]`. -/
theorem positionAccessFrame : Obligations.PositionAccessFrame := by
  intro i n s hi
  rcases exec_positionAccess_cases s hi with ⟨r, hread⟩ | ⟨hne, v, hwrite⟩
  · exact ⟨_, hread, State.history_respond s r, State.intEn_respond s r, State.actRpt_respond s r,
      fun d _ => State.chan_respond s r d, fun _ => State.chan_respond s r⟩
  · exact ⟨_, hwrite, fun c => State.history_memWrite s n c v, State.intEn_memWrite s n v,
      State.actRpt_memWrite s n v, fun d hd => State.chan_memWrite_other s n d v hd,
      fun heq => absurd heq hne⟩

end Sys2Proof.Machine
end

section
/-! SUPPORT. The control bits and the idle host port: what TGLIRQ writes as one record, what `INT_EN`
gates, and a byte that is an operation of its own. -/

namespace Sys2Proof.Machine

/-! ## The toggles -/

/-- The enable calls of one TGLIRQ are its only write besides the bit and the response
(43_control.md R100). -/
theorem State.driveEnables_eq (s : State) (v : Bool) :
    s.driveEnables v = { s with enableCalls := s.enableCalls ++ enablesFor s.config v } := by
  simp [State.driveEnables, State.enableEdgeInterrupt, enablesFor]

/-- For a pin of a channel the event port takes an event exactly while `INT_EN` is 1
(41_interrupt_router.md R85). -/
theorem State.edgeEnabled_of_route {s : State} {g : PinId} {c : Chan}
    (h : route s.config g = some c) : s.edgeEnabled g = s.intEn := by
  simp [State.edgeEnabled, h]

/-- TGLIRQ leaves `INT_EN` flipped (43_control.md R100). -/
theorem intEn_exec_tglirq {s t : State} (h : exec .tglirq s = .next t) : t.intEn = !s.intEn := by
  rw [exec_tglirq] at h
  cases h
  rw [State.intEn_respond, State.intEn_driveEnables, State.intEn_setIntEn]

theorem State.setActRpt_setActRpt (s : State) (v w : Bool) :
    (s.setActRpt v).setActRpt w = s.setActRpt w := rfl

theorem State.setActRpt_self (s : State) : s.setActRpt s.actRpt = s := rfl

/-- Settles O41: the next state is the record written out, `INT_EN` alone gates the routed pins, and
the bit is flipped twice by two toggles. -/
theorem tglirqFlipsAndDrivesTheEnables : Obligations.TglirqFlipsAndDrivesTheEnables := by
  refine ⟨fun s => ?next, fun s t h c => ?gate, fun s => ?twice,
    decode_host_of_decodeHost (decodeHost_tglirq [])⟩
  case next => rw [exec_tglirq, State.driveEnables_eq, State.respond, State.setIntEn, enablesFor]
  case gate =>
    rw [State.edgeEnabled_of_route (route_pinA t.config c),
      State.edgeEnabled_of_route (route_pinB t.config c), intEn_exec_tglirq h]
    exact ⟨rfl, rfl⟩
  case twice =>
    obtain ⟨t, ht⟩ := exec_total .tglirq s
    obtain ⟨u, hu⟩ := exec_total .tglirq t
    rw [execAll_cons _ ht, execAll_cons _ hu, execAll, Option.map_some, intEn_exec_tglirq hu,
      intEn_exec_tglirq ht, Bool.not_not]

/-- Settles O42: TGLRPT is one write of `ACT_RPT`, and the second write puts the old value back. -/
theorem tglrptFlipsTheReportingBit : Obligations.TglrptFlipsTheReportingBit := by
  refine ⟨fun s => ?next, fun s => ?twice, fun s => ?gate,
    decode_host_of_decodeHost (decodeHost_tglrpt [])⟩
  case next => rw [exec_tglrpt, State.setActRpt]
  case twice =>
    rw [execAll_cons _ (exec_tglrpt s), execAll_cons _ (exec_tglrpt _), execAll,
      State.actRpt_setActRpt, Bool.not_not, State.setActRpt_setActRpt, State.setActRpt_self]
  case gate => rw [State.reportingGate]

/-! ## UNREC -/

/-- `UNREC b` is an operation exactly for the unassigned bytes (30_encoding.md R60). -/
theorem wf_unrec_iff (b : Byte) : (Instr.unrec b).wf = true ↔ b ∉ assignedBytes := by
  simp only [Instr.wf, Bool.not_eq_true', List.contains_eq_mem, decide_eq_false_iff_not]

/-- Settles O43: UNREC is the identity on states, and the decoder answers it, with one byte taken,
for every byte that is not assigned. -/
theorem unrecIsANoOp : Obligations.UnrecIsANoOp :=
  ⟨exec_unrec, fun b rest hwf => decodeHost_unrec ((wf_unrec_iff b).1 hwf) rest, wf_unrec_iff⟩

/-! ## Host bytes, one step each -/

/-- The step that takes the last byte of a host operation runs that operation (30_encoding.md R57). -/
theorem step_of_hostByte {s : State} {b : Byte} {rest : List Arrival} {i : Instr} {left : List Byte}
    (harr : s.arrivals = .hostByte b :: rest) (hdec : decodeHost (s.hostRx ++ [b]) = .ok (i, left)) :
    step s = exec i { s with hostRx := left, arrivals := rest } :=
  step_of_run s _ _ (by simp [State.fetch, harr, State.receive, State.receiveByte, hdec])

/-- What the port holds and what is still to arrive are not in the channel space. -/
theorem State.memRead_withPorts (s : State) (rx : List Byte) (arr : List Arrival) (c : Chan) :
    State.memRead { s with hostRx := rx, arrivals := arr } c = s.memRead c := by
  cases c <;> rfl

/-- On the idle host port the one byte of RDPOS c is answered in the step that takes it: nothing
changes but the arrival and the response (42_position_access.md R90). -/
theorem step_of_rdposByte {s : State} {c : Chan} {rest : List Arrival} (hidle : s.hostRx = [])
    (harr : s.arrivals = .hostByte (opcRdpos + chanBit c) :: rest) :
    step s = .next
      (State.respond { s with hostRx := [], arrivals := rest } (.bytes (le32 (s.memRead c)))) := by
  have hdec : decodeHost (s.hostRx ++ [opcRdpos + chanBit c]) = .ok (.rdpos c, []) := by
    rw [hidle]
    exact decodeHost_rdpos c []
  rw [step_of_hostByte harr hdec, exec_rdpos, State.memRead_withPorts]

/-- Settles O48: the first read leaves the port idle and the positions alone, so the second one reads
a position that is still 0. -/
theorem returnEncodersAfterNoEdgesIsZero : Obligations.ReturnEncodersAfterNoEdgesIsZero := by
  intro s rest hzero hidle harr
  have hfirst := step_of_rdposByte (c := .one) hidle harr
  have hsecond := step_of_rdposByte (c := .two) (rest := rest)
    (s := State.respond { s with hostRx := [], arrivals := .hostByte 0x11 :: rest }
      (.bytes (le32 (s.memRead .one)))) rfl rfl
  rw [after_succ 1 hfirst, after_succ 0 hsecond, after_zero]
  simp only [State.results_respond, State.memRead_respond, State.memRead_withPorts, hzero, le32_zero,
    List.append_assoc, List.cons_append, List.nil_append]

end Sys2Proof.Machine
end

section
/-! SUPPORT. No operation faults and no run stops: the state a run ends in is the one `after` names. -/

namespace Sys2Proof.Machine

/-- Where a run does not stop, the state it ends in is `after`. -/
theorem after_eq_of_run {n : Nat} {s t : State}
    (h : Host.Core.run Sys2Proof.core n s = .next t) : after n s = t := by
  rw [after, h]

/-- Settles O3: each operation completes (`exec_total`), hence each step and, by induction over its
length, each run (`run_total`); `after` is then that run's last state. -/
theorem noOperationFaultsAndNoRunStops : Obligations.NoOperationFaultsAndNoRunStops := by
  refine ⟨exec_total, fun n s => ?_⟩
  obtain ⟨t, hrun⟩ := run_total n s
  exact ⟨t, hrun, after_eq_of_run hrun⟩

end Sys2Proof.Machine
end

section
/-! SUPPORT. A block with `INT_EN` 0: what a step does to the channels and the enable bit, what is left
of it while nothing is delivered, and runs whose every step meets a guard. -/

namespace Sys2Proof.Machine

/-! ## Steps, seen from the channels and `INT_EN` -/

/-- What the port holds and what is still to arrive are in neither channel. -/
theorem State.chan_withPorts (s : State) (rx : List Byte) (arr : List Arrival) (c : Chan) :
    State.chan { s with hostRx := rx, arrivals := arr } c = s.chan c := by
  cases c <;> rfl

theorem State.nextInstr_of_run {s u : State} {i : Instr} (h : s.fetch = .run i u) :
    s.nextInstr = some i := by simp [State.nextInstr, h]

/-- A fetch leaves the channels and `INT_EN` alone, unless it takes the reset input, which clears them
and brings no operation. -/
theorem fetch_channels_cases (s : State) :
    (s.fetch.state.intEn = s.intEn ∧ ∀ c, s.fetch.state.chan c = s.chan c) ∨
    (s.resetNext ∧ ∃ t, s.fetch = .quiet t ∧ t.intEn = false ∧ ∀ c, t.chan c = Channel.reset) := by
  rcases s.fetch_cases with ⟨-, h⟩ | ⟨_, rest, _, left, -, -, h⟩ | ⟨b, rest, _, -, -, h⟩ |
    ⟨_, rest, -, h⟩ | ⟨_, _, rest, -, h⟩ | ⟨_, harr, h⟩
  case inr.inr.inr.inr.inr =>
    exact .inr ⟨by simp [State.resetNext, harr], _, h, rfl, State.chan_restart _⟩
  all_goals rw [h]; left
  · exact ⟨rfl, fun _ => rfl⟩
  · exact ⟨rfl, State.chan_withPorts s left rest⟩
  · exact ⟨rfl, State.chan_withPorts s (s.hostRx ++ [b]) rest⟩
  · exact ⟨rfl, State.chan_withPorts s s.hostRx rest⟩
  · exact ⟨rfl, State.chan_withPorts s s.hostRx rest⟩

/-- A step leaves the channels and `INT_EN` alone, or takes the reset input, or runs the next operation
in a state with the channels and `INT_EN` of the old one. -/
theorem step_channels_cases {s t : State} (h : step s = .next t) :
    (t.intEn = s.intEn ∧ ∀ c, t.chan c = s.chan c) ∨
    (s.resetNext ∧ t.intEn = false ∧ ∀ c, t.chan c = Channel.reset) ∨
    (∃ i u, s.nextInstr = some i ∧ u.intEn = s.intEn ∧ (∀ c, u.chan c = s.chan c) ∧
      exec i u = .next t) := by
  rcases step_cases h with hquiet | ⟨i, u, hrun, hexec⟩
  · rcases fetch_channels_cases s with hkeep | ⟨hreset, t', hquiet', hclear⟩
    · rw [hquiet] at hkeep
      exact .inl hkeep
    · cases hquiet.symm.trans hquiet'
      exact .inr (.inl ⟨hreset, hclear⟩)
  · rcases fetch_channels_cases s with hkeep | ⟨-, t', hquiet, -⟩
    · rw [hrun] at hkeep
      exact .inr (.inr ⟨i, u, State.nextInstr_of_run hrun, hkeep.1, hkeep.2, hexec⟩)
    · cases hrun.symm.trans hquiet

/-! ## Operations and steps of a disabled block -/

/-- With `INT_EN` 0 the next step serves no channel (41_interrupt_router.md R85). -/
theorem State.servesNext_of_disabled {s : State} (hoff : s.intEn = false) (c : Chan) :
    s.servesNext c = false := by
  unfold State.servesNext
  split
  · rw [hoff, Bool.false_and]
  · rfl

theorem execEdge_of_disabled (g : PinId) (k : EdgeKind) {s : State} (hoff : s.intEn = false) :
    execEdge g k s = .next s := by
  rcases execEdge_cases g k s with ⟨-, h⟩ | ⟨_, -, -, h⟩ | ⟨_, -, hon, -⟩
  · exact h
  · exact h
  · cases hoff.symm.trans hon

/-- With `INT_EN` 0 an operation other than TGLIRQ writes no channel, or it is RSTPOS or ADDPOS and
writes one position; `INT_EN` stays 0. -/
theorem exec_cases_of_disabled {i : Instr} {s t : State} (hoff : s.intEn = false)
    (hi : i ≠ .tglirq) (h : exec i s = .next t) :
    t.intEn = false ∧
      ((∀ c, t.chan c = s.chan c) ∨
        ∃ d v, t = s.memWrite d v ∧ (v = 0 ∨ ∃ imm, i = .addpos d imm)) := by
  cases i with
  | rdpos d => cases h; exact ⟨hoff, .inl (State.chan_respond s _)⟩
  | rstpos d => cases h; exact ⟨by simp [hoff], .inr ⟨d, _, rfl, .inl rfl⟩⟩
  | addpos d imm => cases h; exact ⟨by simp [hoff], .inr ⟨d, _, rfl, .inr ⟨imm, rfl⟩⟩⟩
  | tglirq => exact absurd rfl hi
  | tglrpt => cases h; exact ⟨hoff, .inl (State.chan_setActRpt s _)⟩
  | unrec b => cases h; exact ⟨hoff, .inl fun _ => rfl⟩
  | edge g k =>
    rw [exec_edge, execEdge_of_disabled g k hoff] at h
    cases h
    exact ⟨hoff, .inl fun _ => rfl⟩

theorem State.history_congr {s t : State} {c : Chan} (h : t.chan c = s.chan c) :
    t.history c = s.history c := by rw [State.history, h, State.history]

theorem State.memRead_congr {s t : State} {c : Chan} (h : t.chan c = s.chan c) :
    t.memRead c = s.memRead c := by rw [State.memRead, h, State.memRead]

/-- A step of a disabled block that is not TGLIRQ leaves it disabled, and every history either stays or
is reset to 00. -/
theorem step_of_disabled {s t : State} (hoff : s.intEn = false)
    (htgl : s.nextInstr ≠ some .tglirq) (h : step s = .next t) :
    t.intEn = false ∧ ∀ c, t.history c = s.history c ∨ t.history c = (false, false) := by
  rcases step_channels_cases h with ⟨hen, hchan⟩ | ⟨-, hen, hchan⟩ | ⟨i, u, hi, hen, hchan, hexec⟩
  · exact ⟨hen.trans hoff, fun c => .inl (State.history_congr (hchan c))⟩
  · exact ⟨hen, fun c => .inr (memRead_history_of_chan_reset (hchan c)).2⟩
  · have hne : i ≠ .tglirq := by rintro rfl; exact htgl hi
    obtain ⟨hoff', hkeep | ⟨d, v, rfl, -⟩⟩ := exec_cases_of_disabled (hen.trans hoff) hne hexec
    · exact ⟨hoff', fun c => .inl (State.history_congr ((hkeep c).trans (hchan c)))⟩
    · exact ⟨hoff', fun c =>
        .inl ((State.history_memWrite u d c v).trans (State.history_congr (hchan c)))⟩

/-- In a step of a disabled block that is neither TGLIRQ nor ADDPOS c, `POS[c]` stays or is cleared. -/
theorem memRead_step_of_disabled {s t : State} {c : Chan} (hoff : s.intEn = false)
    (htgl : s.nextInstr ≠ some .tglirq) (hadd : ∀ imm, s.nextInstr ≠ some (.addpos c imm))
    (h : step s = .next t) : t.memRead c = s.memRead c ∨ t.memRead c = 0 := by
  rcases step_channels_cases h with ⟨-, hchan⟩ | ⟨-, -, hchan⟩ | ⟨i, u, hi, hen, hchan, hexec⟩
  · exact .inl (State.memRead_congr (hchan c))
  · exact .inr (memRead_history_of_chan_reset (hchan c)).1
  · have hne : i ≠ .tglirq := by rintro rfl; exact htgl hi
    obtain ⟨-, hkeep | ⟨d, v, rfl, hv⟩⟩ := exec_cases_of_disabled (hen.trans hoff) hne hexec
    · exact .inl (State.memRead_congr ((hkeep c).trans (hchan c)))
    · by_cases hd : c = d
      · subst hd
        rcases hv with rfl | ⟨imm, rfl⟩
        · exact .inr (State.memRead_memWrite_same u c 0)
        · exact absurd hi (hadd imm)
      · exact .inl (State.memRead_congr
          ((State.chan_memWrite_other u d c v hd).trans (hchan c)))

/-! ## Guarded runs -/

/-- What every step from a state with the guard `G` keeps holds after a run whose steps all start in
states with the guard. -/
theorem after_invariant_of_guard {P G : State → Prop}
    (hstep : ∀ s t, P s → G s → step s = .next t → P t) (n : Nat) (s : State) (hs : P s)
    (hguard : ∀ k, k < n → G (after k s)) : P (after n s) := by
  induction n generalizing s with
  | zero => exact hs
  | succ n ih =>
    obtain ⟨t, ht⟩ := step_total s
    rw [after_succ n ht]
    refine ih t (hstep s t hs (hguard 0 n.succ_pos) ht) fun k hk => ?_
    rw [← after_succ k ht]
    exact hguard (k + 1) (Nat.succ_lt_succ hk)

/-- The block sees nothing of its pins: `INT_EN` is 0 and both histories are 00. -/
def State.Unseeing (s : State) : Prop :=
  s.intEn = false ∧ ∀ c, s.history c = (false, false)

theorem unseeing_step {s t : State} (hs : s.Unseeing) (htgl : s.nextInstr ≠ some .tglirq)
    (h : step s = .next t) : t.Unseeing := by
  obtain ⟨hoff, hhist⟩ := hs
  obtain ⟨hoff', hhist'⟩ := step_of_disabled hoff htgl h
  refine ⟨hoff', fun c => ?_⟩
  rcases hhist' c with hkeep | hreset
  · exact hkeep.trans (hhist c)
  · exact hreset

/-- Without ADDPOS c and TGLIRQ a disabled block keeps `POS[c]` at 0 (70_reset_and_hazards.md R151). -/
theorem disabled_zero_step {s t : State} {c : Chan} (hs : s.intEn = false ∧ s.memRead c = 0)
    (hguard : s.nextInstr ≠ some .tglirq ∧ ∀ imm, s.nextInstr ≠ some (.addpos c imm))
    (h : step s = .next t) : t.intEn = false ∧ t.memRead c = 0 := by
  obtain ⟨hoff, hzero⟩ := hs
  obtain ⟨htgl, hadd⟩ := hguard
  refine ⟨(step_of_disabled hoff htgl h).1, ?_⟩
  rcases memRead_step_of_disabled hoff htgl hadd h with hkeep | hclear
  · exact hkeep.trans hzero
  · exact hclear

/-- Settles O49: both invariants hold with the reset values and every step without TGLIRQ keeps them,
the one about `POS[c]` where the step is not ADDPOS c either. -/
theorem nothingCountsBeforeTheFirstToggle : Obligations.NothingCountsBeforeTheFirstToggle := by
  intro n s hch1 hch2 hoff htgl
  have hreset : ∀ c, s.chan c = Channel.reset := fun c => by
    cases c with
    | one => exact hch1
    | two => exact hch2
  have hvalues : ∀ c, s.memRead c = 0 ∧ s.history c = (false, false) :=
    fun c => memRead_history_of_chan_reset (hreset c)
  obtain ⟨hoff', hhist⟩ : (after n s).Unseeing :=
    after_invariant_of_guard (fun _ _ => unseeing_step) n s ⟨hoff, fun c => (hvalues c).2⟩ htgl
  refine ⟨hoff', State.servesNext_of_disabled hoff', hhist, fun c hadd => ?_⟩
  have hzero : (after n s).intEn = false ∧ (after n s).memRead c = 0 :=
    after_invariant_of_guard (fun _ _ => disabled_zero_step) n s ⟨hoff, (hvalues c).1⟩
      fun k hk => ⟨htgl k hk, fun imm => hadd k imm hk⟩
  exact hzero.2

end Sys2Proof.Machine
end

section
/-! SUPPORT. What a step does, said once: the input an operation does not read, the four kinds of step,
what a step does to one channel, and runs cut in two. -/

namespace Sys2Proof.Machine

/-! ## The waiting input -/

/-- The state with other bytes waiting on the host port and other arrivals to come. -/
def State.withInput (s : State) (rx : List Byte) (arr : List Arrival) : State :=
  { s with hostRx := rx, arrivals := arr }

@[simp] theorem State.intEn_withInput (s : State) (rx : List Byte) (arr : List Arrival) :
    (s.withInput rx arr).intEn = s.intEn := rfl

@[simp] theorem State.actRpt_withInput (s : State) (rx : List Byte) (arr : List Arrival) :
    (s.withInput rx arr).actRpt = s.actRpt := rfl

@[simp] theorem State.hostRx_withInput (s : State) (rx : List Byte) (arr : List Arrival) :
    (s.withInput rx arr).hostRx = rx := rfl

@[simp] theorem State.results_withInput (s : State) (rx : List Byte) (arr : List Arrival) :
    (s.withInput rx arr).results = s.results := rfl

@[simp] theorem State.enableCalls_withInput (s : State) (rx : List Byte) (arr : List Arrival) :
    (s.withInput rx arr).enableCalls = s.enableCalls := rfl

@[simp] theorem State.pins_withInput (s : State) (rx : List Byte) (arr : List Arrival) :
    (s.withInput rx arr).pins = s.pins := rfl

@[simp] theorem State.config_withInput (s : State) (rx : List Byte) (arr : List Arrival) :
    (s.withInput rx arr).config = s.config := rfl

@[simp] theorem State.arrivals_withInput (s : State) (rx : List Byte) (arr : List Arrival) :
    (s.withInput rx arr).arrivals = arr := rfl

@[simp] theorem State.chan_withInput (s : State) (rx : List Byte) (arr : List Arrival) (c : Chan) :
    (s.withInput rx arr).chan c = s.chan c := by cases c <;> rfl

@[simp] theorem State.memRead_withInput (s : State) (rx : List Byte) (arr : List Arrival)
    (c : Chan) : (s.withInput rx arr).memRead c = s.memRead c :=
  State.memRead_congr (State.chan_withInput s rx arr c)

@[simp] theorem State.history_withInput (s : State) (rx : List Byte) (arr : List Arrival)
    (c : Chan) : (s.withInput rx arr).history c = s.history c :=
  State.history_congr (State.chan_withInput s rx arr c)

@[simp] theorem State.sample_withInput (s : State) (rx : List Byte) (arr : List Arrival)
    (c : Chan) : (s.withInput rx arr).sample c = s.sample c := rfl

@[simp] theorem State.withInput_withInput (s : State) (rx rx' : List Byte)
    (arr arr' : List Arrival) : (s.withInput rx arr).withInput rx' arr' = s.withInput rx' arr' := rfl

theorem State.withInput_self (s : State) : s.withInput s.hostRx s.arrivals = s := rfl

theorem State.respond_withInput (s : State) (r : HostResult) (rx : List Byte) (arr : List Arrival) :
    (s.withInput rx arr).respond r = (s.respond r).withInput rx arr := rfl

theorem State.setPin_withInput (s : State) (g : PinId) (v : Bool) (rx : List Byte)
    (arr : List Arrival) : (s.withInput rx arr).setPin g v = (s.setPin g v).withInput rx arr := rfl

theorem State.setChan_withInput (s : State) (c : Chan) (x : Channel) (rx : List Byte)
    (arr : List Arrival) : (s.withInput rx arr).setChan c x = (s.setChan c x).withInput rx arr := by
  cases c <;> rfl

theorem State.memWrite_withInput (s : State) (c : Chan) (v : Position) (rx : List Byte)
    (arr : List Arrival) :
    (s.withInput rx arr).memWrite c v = (s.memWrite c v).withInput rx arr := by
  simp [State.memWrite, State.setChan_withInput]

theorem State.update_withInput (s : State) (c : Chan) (a b : Bool) (rx : List Byte)
    (arr : List Arrival) :
    (s.withInput rx arr).update c a b = (s.update c a b).withInput rx arr := by
  simp [State.update, State.setChan_withInput]

theorem execEdge_withInput {g : PinId} {k : EdgeKind} {s t : State} (rx : List Byte)
    (arr : List Arrival) (h : execEdge g k s = .next t) :
    execEdge g k (s.withInput rx arr) = .next (t.withInput rx arr) := by
  cases hroute : route s.config g with
  | none =>
    have hpin : UnknownPin s.config g := (route_eq_none_iff _ _).1 hroute
    rw [execEdge_of_unknownPin k hpin] at h
    cases h
    exact execEdge_of_unknownPin k hpin
  | some c =>
    have hroute' : route (s.withInput rx arr).config g = some c := hroute
    rw [execEdge_of_route k hroute] at h
    cases h
    rw [execEdge_of_route k hroute', State.intEn_withInput, State.sample_withInput,
      State.update_withInput, apply_ite (State.withInput · rx arr)]

/-- No operation reads what waits on the host port or what is still to arrive. -/
theorem exec_withInput {i : Instr} {s t : State} (rx : List Byte) (arr : List Arrival)
    (h : exec i s = .next t) : exec i (s.withInput rx arr) = .next (t.withInput rx arr) := by
  cases i with
  | rdpos c => cases h; simp [State.respond_withInput]
  | rstpos c => cases h; simp [State.memWrite_withInput]
  | addpos c imm => cases h; simp [State.memWrite_withInput]
  | tglirq => cases h; rfl
  | tglrpt => cases h; rfl
  | unrec b => cases h; rfl
  | edge g k => exact execEdge_withInput (k := k) rx arr h

/-- No operation writes a pin, the waiting bytes or what is still to arrive (00_scope.md R5). -/
theorem exec_keeps_input {i : Instr} {s t : State} (h : exec i s = .next t) :
    t.pins = s.pins ∧ t.hostRx = s.hostRx ∧ t.arrivals = s.arrivals := by
  cases i with
  | rdpos c => cases h; simp
  | rstpos c => cases h; simp
  | addpos c imm => cases h; simp
  | tglirq => cases h; simp
  | tglrpt => cases h; simp
  | unrec b => cases h; simp
  | edge g k =>
    rw [exec_edge] at h
    rcases execEdge_cases g k s with ⟨-, e⟩ | ⟨c, -, -, e⟩ | ⟨c, -, -, e⟩ <;>
      (rw [e] at h; cases h; simp)

/-! ## The four kinds of step -/

/-- What one step from `s` to `t` was. -/
inductive Stepped (s t : State) : Prop where
  /-- Nothing arrived, or a byte after which the host port goes on waiting. -/
  | waited (rx : List Byte) (arr : List Arrival) (hnone : s.nextInstr = none)
      (hreset : ¬ s.resetNext) (ht : t = s.withInput rx arr)
  /-- The environment set a pin. -/
  | pinSet (g : PinId) (v : Bool) (rest : List Arrival) (hnone : s.nextInstr = none)
      (hreset : ¬ s.resetNext) (ht : t = (s.withInput s.hostRx rest).setPin g v)
  /-- The reset input. -/
  | restarted (rest : List Arrival) (hnone : s.nextInstr = none) (hreset : s.resetNext)
      (ht : t = (s.withInput s.hostRx rest).restart)
  /-- An operation ran. -/
  | ran (i : Instr) (rx : List Byte) (arr : List Arrival) (hi : s.nextInstr = some i)
      (hreset : ¬ s.resetNext) (hexec : exec i (s.withInput rx arr) = .next t)

theorem State.nextInstr_of_quiet {s u : State} (h : s.fetch = .quiet u) : s.nextInstr = none := by
  simp [State.nextInstr, h]

/-- Every step is of one of the four kinds. -/
theorem stepped_of_step {s t : State} (h : step s = .next t) : Stepped s t := by
  rcases s.fetch_cases with ⟨harr, hf⟩ | ⟨b, rest, i, left, harr, -, hf⟩ |
    ⟨b, rest, e, harr, -, hf⟩ | ⟨w, rest, harr, hf⟩ | ⟨g, v, rest, harr, hf⟩ | ⟨rest, harr, hf⟩
  · cases (step_of_quiet s _ hf).symm.trans h
    exact .waited s.hostRx s.arrivals (State.nextInstr_of_quiet hf)
      (by simp [State.resetNext, harr]) rfl
  · rw [step_of_run s _ i hf] at h
    exact .ran i left rest (State.nextInstr_of_run hf) (by simp [State.resetNext, harr]) h
  · cases (step_of_quiet s _ hf).symm.trans h
    exact .waited _ _ (State.nextInstr_of_quiet hf) (by simp [State.resetNext, harr]) rfl
  · rw [step_of_run s _ _ hf] at h
    exact .ran _ s.hostRx rest (State.nextInstr_of_run hf) (by simp [State.resetNext, harr]) h
  · cases (step_of_quiet s _ hf).symm.trans h
    exact .pinSet g v rest (State.nextInstr_of_quiet hf) (by simp [State.resetNext, harr]) rfl
  · cases (step_of_quiet s _ hf).symm.trans h
    exact .restarted rest (State.nextInstr_of_quiet hf) (by simp [State.resetNext, harr]) rfl

/-! ## What a step does to one channel -/

theorem State.servesNext_eq_true_iff (s : State) (c : Chan) :
    s.servesNext c = true ↔
      s.intEn = true ∧ ∃ g k, s.nextInstr = some (.edge g k) ∧ route s.config g = some c := by
  unfold State.servesNext
  split
  · next g k hi => simp [hi]
  · next hi => simpa using fun _ g k hgk => absurd hgk (hi g k)

/-- A step whose operation is no delivered EDGE for `c` does not serve `c`. -/
theorem State.servesNext_eq_false {s : State} {c : Chan}
    (h : ∀ g k, s.nextInstr = some (.edge g k) → s.intEn = true → route s.config g ≠ some c) :
    s.servesNext c = false := by
  rw [Bool.eq_false_iff, ne_eq, State.servesNext_eq_true_iff]
  rintro ⟨hon, g, k, hi, hroute⟩
  exact h g k hi hon hroute

/-- What one step from `s` to `t` did to channel `c` (10_state.md R12). -/
inductive ChannelStep (c : Chan) (s t : State) : Prop where
  | kept (hchan : t.chan c = s.chan c) (hserve : s.servesNext c = false)
      (hadd : ∀ imm, s.nextInstr ≠ some (.addpos c imm))
  | restarted (hreset : s.resetNext) (hchan : t.chan c = Channel.reset) (hen : t.intEn = false)
  | zeroed (hi : s.nextInstr = some (.rstpos c)) (hpos : t.memRead c = 0)
      (hhist : t.history c = s.history c)
  | added (imm : Position) (hi : s.nextInstr = some (.addpos c imm))
      (hpos : t.memRead c = s.memRead c + imm) (hhist : t.history c = s.history c)
  | counted (hserve : s.servesNext c = true)
      (hpos : t.memRead c = s.memRead c +
        (dir (s.history c).1 (s.history c).2 (s.sample c).1 (s.sample c).2).addend)
      (hhist : t.history c = s.sample c)

/-- A step that runs an operation other than ADDPOS c and EDGE keeps channel `c` if that operation
does. -/
theorem ChannelStep.kept_of_ran {c : Chan} {i : Instr} {s t : State} (hi : s.nextInstr = some i)
    (hadd : ∀ imm, i ≠ .addpos c imm) (hedge : ∀ g k, i ≠ .edge g k)
    (hchan : t.chan c = s.chan c) : ChannelStep c s t :=
  .kept hchan
    (State.servesNext_eq_false fun g k hgk => absurd (Option.some.inj (hi.symm.trans hgk)) (hedge g k))
    fun imm himm => absurd (Option.some.inj (hi.symm.trans himm)) (hadd imm)

/-- EDGE serves the channel its pin is routed to, while `INT_EN` is 1, and keeps the channels
otherwise. -/
theorem channelStep_of_edge (c : Chan) {g : PinId} {k : EdgeKind} {rx : List Byte}
    {arr : List Arrival} {s t : State} (hi : s.nextInstr = some (.edge g k))
    (hexec : execEdge g k (s.withInput rx arr) = .next t) : ChannelStep c s t := by
  have hadd : ∀ imm, s.nextInstr ≠ some (.addpos c imm) := by simp [hi]
  have hedge : ∀ g' k', s.nextInstr = some (.edge g' k') → g' = g := by
    intro g' k' hgk
    cases hi.symm.trans hgk
    rfl
  rcases execEdge_cases g k (s.withInput rx arr) with ⟨hroute, e⟩ | ⟨d, -, hoff, e⟩ |
    ⟨d, hroute, hon, e⟩
  all_goals rw [e] at hexec; cases hexec
  · refine .kept (State.chan_withInput ..) (State.servesNext_eq_false fun g' k' hgk _ => ?_) hadd
    rw [hedge g' k' hgk, show route s.config g = none from hroute]
    exact nofun
  · exact .kept (State.chan_withInput ..) (State.servesNext_of_disabled (s := s) hoff c) hadd
  · by_cases hd : c = d
    · subst hd
      exact .counted ((s.servesNext_eq_true_iff c).2 ⟨hon, g, k, hi, hroute⟩)
        (by simp) (by simp)
    · refine .kept (by simp [hd]) (State.servesNext_eq_false fun g' k' hgk _ hsome => hd ?_) hadd
      rw [hedge g' k' hgk] at hsome
      exact Option.some.inj (hsome.symm.trans hroute)

/-- Every step does one of the five things to a channel. -/
theorem channelStep_of_step (c : Chan) {s t : State} (h : step s = .next t) :
    ChannelStep c s t := by
  rcases stepped_of_step h with ⟨rx, arr, hnone, -, rfl⟩ | ⟨g, v, rest, hnone, -, rfl⟩ |
    ⟨rest, -, hreset, rfl⟩ | ⟨i, rx, arr, hi, -, hexec⟩
  · exact .kept (State.chan_withInput ..) (State.servesNext_eq_false (by simp [hnone]))
      (by simp [hnone])
  · exact .kept (by simp) (State.servesNext_eq_false (by simp [hnone])) (by simp [hnone])
  · exact .restarted hreset (State.chan_restart _ c) rfl
  · cases i with
    | rdpos d => cases hexec; exact .kept_of_ran hi nofun nofun (by simp)
    | rstpos d =>
      cases hexec
      by_cases hd : c = d
      · subst hd
        exact .zeroed hi (by simp) (by simp)
      · exact .kept_of_ran hi nofun nofun (by simp [hd])
    | addpos d imm =>
      cases hexec
      by_cases hd : c = d
      · subst hd
        exact .added imm hi (by simp [add32]) (by simp)
      · exact .kept_of_ran hi (by simp [Ne.symm hd]) nofun (by simp [hd])
    | tglirq => cases hexec; exact .kept_of_ran hi nofun nofun (by simp)
    | tglrpt => cases hexec; exact .kept_of_ran hi nofun nofun (by simp)
    | unrec b => cases hexec; exact .kept_of_ran hi nofun nofun (by simp)
    | edge g k => exact channelStep_of_edge c hi hexec

/-! ## Runs cut in two -/

theorem after_add (m n : Nat) (s : State) : after (m + n) s = after n (after m s) := by
  induction m generalizing s with
  | zero => rw [Nat.zero_add, after_zero]
  | succ m ih =>
    obtain ⟨t, ht⟩ := step_total s
    rw [Nat.succ_add, after_succ _ ht, after_succ _ ht, ih]

/-- A run's next state is one step further. -/
theorem step_after (n : Nat) (s : State) : step (after n s) = .next (after (n + 1) s) := by
  obtain ⟨t, ht⟩ := step_total (after n s)
  rw [ht, after_add n 1, after_succ 0 ht, after_zero]

end Sys2Proof.Machine
end

section
/-! SUPPORT. Decode and encode agree in both directions: the rows of the first byte's map read from the
byte, and the encoding of a decoded event word. -/

namespace Sys2Proof.Machine

/-! ## From an operation to its encoding and back -/

theorem decodeEvent_encode (g : PinId) (k : EdgeKind) :
    decodeEvent ((0 : BitVec 6) ++ kindBits k ++ g) = .edge g k := by
  have hgpio : eventGpio ((0 : BitVec 6) ++ kindBits k ++ g) = g := by
    rw [eventGpio_eq_ofNat]
    apply BitVec.eq_of_toNat_eq
    rw [toNat_append_eq_add, BitVec.toNat_ofNat]
    omega
  have hkind : eventKind ((0 : BitVec 6) ++ kindBits k ++ g) = k := by
    have hbit : ∀ i, i < 2 → ((0 : BitVec 6) ++ kindBits k ++ g).getLsbD (8 + i) =
        (kindBits k).getLsbD i := fun i hi => by
      rw [BitVec.getLsbD_append, BitVec.getLsbD_append]
      simp [hi]
    have hrise : ((0 : BitVec 6) ++ kindBits k ++ g).getLsbD 9 = (kindBits k).getLsbD 1 :=
      hbit 1 (by decide)
    have hfall : ((0 : BitVec 6) ++ kindBits k ++ g).getLsbD 8 = (kindBits k).getLsbD 0 :=
      hbit 0 (by decide)
    rw [eventKind, hrise, hfall]
    cases k <;> rfl
  rw [decodeEvent, hgpio, hkind]

/-- The host port reads back every well-formed operation from its bytes, whatever follows them. -/
theorem decodeHost_encode {i : Instr} (hwf : i.wf = true) {bs : List Byte}
    (henc : encode i = .host bs) (rest : List Byte) : decodeHost (bs ++ rest) = .ok (i, rest) := by
  cases i with
  | rdpos c => cases henc; exact decodeHost_rdpos c rest
  | rstpos c => cases henc; exact decodeHost_rstpos c rest
  | addpos c imm => cases henc; exact decodeHost_addpos_le32 c imm rest
  | tglirq => cases henc; exact decodeHost_tglirq rest
  | tglrpt => cases henc; exact decodeHost_tglrpt rest
  | unrec b => cases henc; exact decodeHost_unrec ((wf_unrec_iff b).1 hwf) rest
  | edge g k => cases henc

/-- Settles O14: on the host port by the row's equation of the decoder, on the event port field by
field. -/
theorem decodeReadsBackEveryEncoding : Obligations.DecodeReadsBackEveryEncoding := by
  intro i hwf
  refine ⟨?_, fun bs rest henc => decodeHost_encode hwf henc rest⟩
  cases henc : encode i with
  | host bs =>
    have hread := decodeHost_encode hwf henc []
    rw [List.append_nil] at hread
    exact decode_host_of_decodeHost hread
  | event w =>
    cases i with
    | edge g k =>
      cases henc
      rw [decode, decodeEvent_encode]
    | _ => cases henc

/-! ## From the bytes to the operation and back -/

/-- The rows of 30_encoding.md R58, read from the first byte. -/
theorem firstByte_cases (b : Byte) :
    (∃ c, b = opcRdpos + chanBit c) ∨ (∃ c, b = opcRstpos + chanBit c) ∨
      (∃ c, b = opcAddpos + chanBit c) ∨ b = opcTglirq ∨ b = opcTglrpt ∨ b ∉ assignedBytes := by
  by_cases hb : b ∈ assignedBytes
  · fin_cases hb
    · exact .inl ⟨.one, rfl⟩
    · exact .inl ⟨.two, rfl⟩
    · exact .inr (.inl ⟨.one, rfl⟩)
    · exact .inr (.inl ⟨.two, rfl⟩)
    · exact .inr (.inr (.inl ⟨.one, rfl⟩))
    · exact .inr (.inr (.inl ⟨.two, rfl⟩))
    · exact .inr (.inr (.inr (.inl rfl)))
    · exact .inr (.inr (.inr (.inr (.inl rfl))))
  · exact .inr (.inr (.inr (.inr (.inr hb))))

/-- Four bytes are the little-endian form of the operand they spell (20_memory.md R32, R33). -/
theorem le32_unle32 (b1 b2 b3 b4 : Byte) : le32 (unle32 b1 b2 b3 b4) = [b1, b2, b3, b4] := by
  have hbyte : ∀ k (b : Byte), (unle32 b1 b2 b3 b4).toNat / 256 ^ k % 256 = b.toNat →
      byteOf (unle32 b1 b2 b3 b4) k = b := fun k b h =>
    BitVec.eq_of_toNat_eq (by rw [byteOf, BitVec.toNat_ofNat]; exact h)
  rw [le32_eq_byteOf, hbyte 0 b1, hbyte 1 b2, hbyte 2 b3, hbyte 3 b4]
  all_goals rw [toNat_unle32]; omega

/-- An ADDPOS that the host port decodes took its opcode byte and the bytes of its operand. -/
theorem decodeHost_addpos_inv {c : Chan} {tail rest : List Byte} {i : Instr}
    (h : decodeHost ((opcAddpos + chanBit c) :: tail) = .ok (i, rest)) :
    ∃ imm, i = .addpos c imm ∧ tail = le32 imm ++ rest := by
  match tail with
  | b1 :: b2 :: b3 :: b4 :: tail =>
    rw [decodeHost_addpos] at h
    cases h
    exact ⟨_, rfl, by rw [le32_unle32]; rfl⟩
  | [] | [_] | [_, _] | [_, _, _] =>
    rw [decodeHost_addpos_waits c (by simp)] at h
    cases h

/-- What the host port decodes is a well-formed operation, and the bytes taken are its encoding. -/
theorem encode_of_decodeHost {bs rest : List Byte} {i : Instr}
    (h : decodeHost bs = .ok (i, rest)) :
    i.wf = true ∧ ∃ used, encode i = .host used ∧ bs = used ++ rest := by
  cases bs with
  | nil => cases h
  | cons b tail =>
    rcases firstByte_cases b with ⟨c, rfl⟩ | ⟨c, rfl⟩ | ⟨c, rfl⟩ | rfl | rfl | hb
    · rw [decodeHost_rdpos] at h
      cases h
      exact ⟨rfl, _, rfl, rfl⟩
    · rw [decodeHost_rstpos] at h
      cases h
      exact ⟨rfl, _, rfl, rfl⟩
    · obtain ⟨imm, rfl, rfl⟩ := decodeHost_addpos_inv h
      exact ⟨rfl, _, rfl, rfl⟩
    · rw [decodeHost_tglirq] at h
      cases h
      exact ⟨rfl, _, rfl, rfl⟩
    · rw [decodeHost_tglrpt] at h
      cases h
      exact ⟨rfl, _, rfl, rfl⟩
    · rw [decodeHost_unrec hb] at h
      cases h
      exact ⟨(wf_unrec_iff b).2 hb, _, rfl, rfl⟩

theorem kindBits_eventKind (w : EventWord) : kindBits (eventKind w) = w.extractLsb' 8 2 := by
  apply BitVec.eq_of_getLsbD_eq
  intro i hi
  rw [eventKind, BitVec.getLsbD_extractLsb']
  interval_cases i <;> cases w.getLsbD 9 <;> cases w.getLsbD 8 <;> rfl

/-- The encoding of a decoded event word is the word with the six ignored bits cleared
(30_encoding.md R53). -/
theorem encode_decodeEvent (w : EventWord) :
    encode (decodeEvent w) = .event (BitVec.ofNat 16 (w.toNat % 1024)) := by
  rw [decodeEvent, encode, kindBits_eventKind, eventGpio]
  congr 1
  apply BitVec.eq_of_toNat_eq
  simp only [toNat_append_eq_add, BitVec.extractLsb'_toNat, BitVec.toNat_ofNat,
    Nat.shiftRight_eq_div_pow, Nat.pow_zero, Nat.div_one, Nat.reducePow,
    show (0 : BitVec 6).toNat = 0 from rfl]
  omega

/-- Settles O15: the host port row by row, the event port by its two fields. -/
theorem everyDecodedTransactionIsAnEncoding : Obligations.EveryDecodedTransactionIsAnEncoding :=
  ⟨fun _ _ _ h => encode_of_decodeHost h, fun w => ⟨rfl, encode_decodeEvent w⟩⟩

/-- Settles O16: seven closed words, one for each row. -/
theorem tableWordsDecodeToTheirRows : Obligations.TableWordsDecodeToTheirRows := by
  unfold Obligations.TableWordsDecodeToTheirRows
  decide

end Sys2Proof.Machine
end

section
/-! SUPPORT. Who writes a channel and a control bit, and what a run adds up to: the ledger of a position
and the parity of the toggles. -/

namespace Sys2Proof.Machine

/-! ## The ledger of a position -/

theorem State.countNext_of_not_serves {s : State} {c : Chan} (h : s.servesNext c = false) :
    s.countNext c = 0 := by simp [State.countNext, h]

theorem State.countNext_of_serves {s : State} {c : Chan} (h : s.servesNext c = true) :
    s.countNext c = (dir (s.history c).1 (s.history c).2 (s.sample c).1 (s.sample c).2).toInt := by
  simp [State.countNext, h]

theorem State.offsetNext_of_addpos {s : State} {c : Chan} {imm : Position}
    (h : s.nextInstr = some (.addpos c imm)) : s.offsetNext c = imm.toInt := by
  simp [State.offsetNext, h]

theorem State.offsetNext_of_not_addpos {s : State} {c : Chan}
    (h : ∀ imm, s.nextInstr ≠ some (.addpos c imm)) : s.offsetNext c = 0 := by
  unfold State.offsetNext
  split
  · next d imm hi => exact if_neg fun hd => h imm (by rw [hi, hd])
  · rfl

/-- A delivered EDGE is no host operation. -/
theorem State.nextInstr_ne_addpos_of_serves {s : State} {c : Chan} (h : s.servesNext c = true)
    (d : Chan) (imm : Position) : s.nextInstr ≠ some (.addpos d imm) := by
  obtain ⟨-, g, k, hi, -⟩ := (s.servesNext_eq_true_iff c).1 h
  simp [hi]

theorem State.servesNext_of_addpos {s : State} {d : Chan} {imm : Position}
    (h : s.nextInstr = some (.addpos d imm)) (c : Chan) : s.servesNext c = false :=
  State.servesNext_eq_false (by simp [h])

theorem State.clearsNext_eq_false_iff (s : State) (c : Chan) :
    s.clearsNext c = false ↔ s.nextInstr ≠ some (.rstpos c) ∧ ¬ s.resetNext := by
  simp [State.clearsNext, State.resetNext]

/-- A step that does not clear `POS[c]` adds its count and its offset to it, modulo 2^32. -/
theorem memRead_step_ledger {c : Chan} {s t : State} (hclear : s.clearsNext c = false)
    (h : step s = .next t) :
    t.memRead c = s.memRead c + BitVec.ofInt 32 (s.countNext c + s.offsetNext c) := by
  obtain ⟨hrst, hreset⟩ := (s.clearsNext_eq_false_iff c).1 hclear
  cases channelStep_of_step c h with
  | kept hchan hserve hadd =>
    rw [State.memRead_congr hchan, State.countNext_of_not_serves hserve,
      State.offsetNext_of_not_addpos hadd]
    simp
  | restarted hreset' => exact absurd hreset' hreset
  | zeroed hi => exact absurd hi hrst
  | added imm hi hpos =>
    rw [hpos, State.countNext_of_not_serves (State.servesNext_of_addpos hi c),
      State.offsetNext_of_addpos hi, zero_add, BitVec.ofInt_toInt]
  | counted hserve hpos =>
    rw [hpos, State.countNext_of_serves hserve,
      State.offsetNext_of_not_addpos (State.nextInstr_ne_addpos_of_serves hserve c), add_zero,
      Direction.addend_eq_ofInt]

theorem sumTo_zero (f : Nat → Int) : sumTo 0 f = 0 := rfl

theorem sumTo_succ (n : Nat) (f : Nat → Int) : sumTo (n + 1) f = sumTo n f + f n := by
  simp [sumTo, List.range_succ]

/-- Settles O53: by induction over the run, the last step adding its own count and offset. -/
theorem positionIsTheLedgerOfTheRun : Obligations.PositionIsTheLedgerOfTheRun := by
  intro c n s hclear
  induction n with
  | zero => simp [sumTo_zero]
  | succ n ih =>
    have hstart := ih fun k hk => hclear k (Nat.lt_succ_of_lt hk)
    have hlast := memRead_step_ledger (hclear n n.lt_succ_self) (step_after n s)
    rw [hlast, hstart, sumTo_succ, sumTo_succ, add_assoc, ← BitVec.ofInt_add]
    congr 2
    ring

/-! ## Who writes a channel -/

/-- Settles O4: of the five things a step does to a channel, the four that change its position or its
history are the writers named. -/
theorem channelIsWrittenOnlyByItsWriters : Obligations.ChannelIsWrittenOnlyByItsWriters := by
  intro s t c h
  cases channelStep_of_step c h with
  | kept hchan =>
    exact ⟨fun hne => absurd (State.history_congr hchan) hne,
      fun hne => absurd (State.memRead_congr hchan) hne⟩
  | restarted hreset => exact ⟨fun _ => .inr hreset, fun _ => .inr (.inr (.inr hreset))⟩
  | zeroed hi _ hhist => exact ⟨fun hne => absurd hhist hne, fun _ => .inr (.inl hi)⟩
  | added imm hi _ hhist =>
    exact ⟨fun hne => absurd hhist hne, fun _ => .inr (.inr (.inl ⟨imm, hi⟩))⟩
  | counted hserve _ hhist => exact ⟨fun _ => .inl ⟨hserve, hhist⟩, fun _ => .inl hserve⟩

/-- Where nothing is delivered and no reset comes a step keeps the history, and only RSTPOS c and ADDPOS c
write the position. -/
theorem step_of_not_serves {c : Chan} {s t : State} (hreset : ¬ s.resetNext)
    (hserve : s.servesNext c = false) (h : step s = .next t) :
    t.history c = s.history c ∧
      ((∀ imm, s.nextInstr ≠ some (.rstpos c) ∧ s.nextInstr ≠ some (.addpos c imm)) →
        t.memRead c = s.memRead c) := by
  cases channelStep_of_step c h with
  | kept hchan => exact ⟨State.history_congr hchan, fun _ => State.memRead_congr hchan⟩
  | restarted hreset' => exact absurd hreset' hreset
  | zeroed hi _ hhist => exact ⟨hhist, fun hwrites => absurd hi (hwrites 0).1⟩
  | added imm hi _ hhist => exact ⟨hhist, fun hwrites => absurd hi (hwrites imm).2⟩
  | counted hserve' => cases hserve'.symm.trans hserve

/-- Settles O51: by induction over the run; a disabled block is delivered nothing. -/
theorem disabledRunKeepsTheHistory : Obligations.DisabledRunKeepsTheHistory := by
  intro n s hquiet c
  induction n with
  | zero => exact ⟨rfl, fun _ => rfl⟩
  | succ n ih =>
    obtain ⟨hhist, hpos⟩ := ih fun k hk => hquiet k (Nat.lt_succ_of_lt hk)
    obtain ⟨hoff, hreset⟩ := hquiet n n.lt_succ_self
    obtain ⟨hkeep, hstay⟩ :=
      step_of_not_serves hreset (State.servesNext_of_disabled hoff c) (step_after n s)
    exact ⟨hkeep.trans hhist, fun hwrites => (hstay (hwrites n n.lt_succ_self)).trans
      (hpos fun k hk => hwrites k (Nat.lt_succ_of_lt hk))⟩

/-! ## Who writes a control bit -/

/-- An operation flips `INT_EN` exactly if it is TGLIRQ, and `ACT_RPT` exactly if it is TGLRPT. -/
theorem exec_controlBits {i : Instr} {s t : State} (h : exec i s = .next t) :
    t.intEn = (s.intEn ^^ decide (i = .tglirq)) ∧ t.actRpt = (s.actRpt ^^ decide (i = .tglrpt)) := by
  cases i with
  | rdpos c => cases h; simp
  | rstpos c => cases h; simp
  | addpos c imm => cases h; simp
  | tglirq => cases h; simp
  | tglrpt => cases h; simp
  | unrec b => cases h; simp
  | edge g k =>
    rw [exec_edge] at h
    rcases execEdge_cases g k s with ⟨-, e⟩ | ⟨c, -, -, e⟩ | ⟨c, -, -, e⟩ <;>
      (rw [e] at h; cases h; simp)

/-- A step other than the reset input flips each control bit exactly if it runs the bit's toggle. -/
theorem step_controlBits {s t : State} (hreset : ¬ s.resetNext) (h : step s = .next t) :
    t.intEn = (s.intEn ^^ decide (s.nextInstr = some .tglirq)) ∧
      t.actRpt = (s.actRpt ^^ decide (s.nextInstr = some .tglrpt)) := by
  rcases stepped_of_step h with ⟨rx, arr, hnone, -, rfl⟩ | ⟨g, v, rest, hnone, -, rfl⟩ |
    ⟨rest, -, hreset', rfl⟩ | ⟨i, rx, arr, hi, -, hexec⟩
  · simp [hnone]
  · simp [hnone]
  · exact absurd hreset' hreset
  · simpa [hi] using exec_controlBits hexec

theorem intEn_actRpt_step_of_reset {s t : State} (hreset : s.resetNext) (h : step s = .next t) :
    t.intEn = false ∧ t.actRpt = false := by
  rcases stepped_of_step h with ⟨_, _, -, hno, -⟩ | ⟨_, _, _, -, hno, -⟩ | ⟨_, -, -, rfl⟩ |
    ⟨_, _, _, -, hno, -⟩
  · exact absurd hreset hno
  · exact absurd hreset hno
  · exact ⟨rfl, rfl⟩
  · exact absurd hreset hno

/-- Settles O7: a changed bit has been flipped by its toggle, or cleared by the reset input. -/
theorem controlBitsAreWrittenOnlyByTheirToggles :
    Obligations.ControlBitsAreWrittenOnlyByTheirToggles := by
  intro s t h
  by_cases hreset : s.resetNext
  · obtain ⟨hen, hrpt⟩ := intEn_actRpt_step_of_reset hreset h
    exact ⟨fun _ => .inr ⟨hreset, hen⟩, fun _ => .inr ⟨hreset, hrpt⟩⟩
  · obtain ⟨hen, hrpt⟩ := step_controlBits hreset h
    refine ⟨fun hne => .inl ?_, fun hne => .inl ?_⟩
    · by_contra htgl
      simp [hen, htgl] at hne
    · by_contra htgl
      simp [hrpt, htgl] at hne

/-- One more toggle flips the parity of their number. -/
theorem parity_add_toNat (m : Nat) (b : Bool) :
    ((m + b.toNat) % 2 == 1) = ((m % 2 == 1) ^^ b) := by
  rcases Nat.mod_two_eq_zero_or_one m with h | h <;> cases b <;> simp [Nat.add_mod, h]

theorem length_filter_range_succ (n : Nat) (p : Nat → Bool) :
    ((List.range (n + 1)).filter p).length = ((List.range n).filter p).length + (p n).toNat := by
  rw [List.range_succ, List.filter_append, List.length_append]
  cases hp : p n <;> simp [hp]

/-- Settles O50: by induction over the run, the last step flipping the bit if it is TGLIRQ. -/
theorem enableFollowsTheParityOfToggles : Obligations.EnableFollowsTheParityOfToggles := by
  intro n s hreset
  induction n with
  | zero => simp
  | succ n ih =>
    have hstart := ih fun k hk => hreset k (Nat.lt_succ_of_lt hk)
    obtain ⟨hlast, -⟩ := step_controlBits (hreset n n.lt_succ_self) (step_after n s)
    rw [← beq_eq_decide] at hlast
    rw [hlast, hstart, length_filter_range_succ, parity_add_toNat, Bool.xor_assoc]

end Sys2Proof.Machine
end

section
/-! SUPPORT. Exact counting where no edge is missed (60_exceptions.md R130): the history of a channel is
its pin pair, or one valid transition behind it with the EDGE that will see the transition still due. -/

namespace Sys2Proof.Machine

/-! ## The pin pair of a channel -/

theorem State.sample_congr {s t : State} (hpins : t.pins = s.pins) (hconfig : t.config = s.config)
    (c : Chan) : t.sample c = s.sample c := by
  simp [State.sample, State.pin, hpins, hconfig]

theorem sample_exec {i : Instr} {s t : State} (h : exec i s = .next t) (c : Chan) :
    t.sample c = s.sample c :=
  State.sample_congr (exec_keeps_input h).1 (config_exec h) c

/-- A channel has two different pins (00_scope.md R4). -/
theorem pinA_ne_pinB (cfg : Config) (c : Chan) : cfg.pinA c ≠ cfg.pinB c := by
  obtain ⟨h1, -, -, -, -, h2⟩ := config_pins_distinct cfg
  cases c
  · exact h1
  · exact h2

/-- A change of exactly one of two levels is a valid transition (00_scope.md section 6). -/
theorem validTransition_of_one_level {p q : Bool × Bool} (hone : q.1 = p.1 ∨ q.2 = p.2)
    (hne : q ≠ p) : validTransition p q = true := by
  revert p q
  decide

/-- One pin set moves at most one level of a pair. -/
theorem sample_setPin_cases (s : State) (g : PinId) (v : Bool) (c : Chan) :
    ((s.setPin g v).sample c).1 = (s.sample c).1 ∨ ((s.setPin g v).sample c).2 = (s.sample c).2 := by
  by_cases hg : s.config.pinA c = g
  · right
    have hB : s.config.pinB c ≠ g := hg ▸ (pinA_ne_pinB s.config c).symm
    simp [State.sample, hB]
  · left
    simp [State.sample, hg]

theorem State.movesNext_eq_true_iff {s t : State} (h : step s = .next t) (c : Chan) :
    s.movesNext c = true ↔ t.sample c ≠ s.sample c := by
  rw [State.movesNext, after_succ 0 h, after_zero, bne_iff_ne]

/-- What one step from `s` to `t`, other than the reset input, did to the pins and the history of
channel `c`. -/
inductive PairStep (c : Chan) (s t : State) : Prop where
  | moved (hmove : s.movesNext c = true) (hserve : s.servesNext c = false)
      (hhist : t.history c = s.history c)
      (hvalid : validTransition (s.sample c) (t.sample c) = true)
  | served (hserve : s.servesNext c = true) (hhist : t.history c = s.sample c)
      (hpair : t.sample c = s.sample c)
  | rested (hserve : s.servesNext c = false) (hhist : t.history c = s.history c)
      (hpair : t.sample c = s.sample c)

/-- A step that is not the reset input records the sampled pair if it serves the channel, and keeps the
history if it does not. -/
theorem history_step {c : Chan} {s t : State} (hreset : ¬ s.resetNext) (h : step s = .next t) :
    t.history c = if s.servesNext c then s.sample c else s.history c := by
  cases channelStep_of_step c h with
  | kept hchan hserve => simp [hserve, State.history_congr hchan]
  | restarted hreset' => exact absurd hreset' hreset
  | zeroed hi _ hhist => simp [State.servesNext_eq_false (s := s) (c := c) (by simp [hi]), hhist]
  | added imm hi _ hhist => simp [State.servesNext_of_addpos hi c, hhist]
  | counted hserve _ hhist => simp [hserve, hhist]

/-- Only the environment moves a pin, by one valid transition of the pair; a served pair is at rest. -/
theorem pairStep_of_step (c : Chan) {s t : State} (hreset : ¬ s.resetNext) (h : step s = .next t) :
    PairStep c s t := by
  have hhist := history_step (c := c) hreset h
  have hstill (hpair : t.sample c = s.sample c) : PairStep c s t := by
    cases hserve : s.servesNext c with
    | true => exact .served hserve (by simpa [hserve] using hhist) hpair
    | false => exact .rested hserve (by simpa [hserve] using hhist) hpair
  rcases stepped_of_step h with ⟨rx, arr, -, -, rfl⟩ | ⟨g, v, rest, hnone, -, rfl⟩ |
    ⟨rest, -, hreset', -⟩ | ⟨i, rx, arr, -, -, hexec⟩
  · exact hstill rfl
  · by_cases hpair : ((s.withInput s.hostRx rest).setPin g v).sample c = s.sample c
    · exact hstill hpair
    · have hserve : s.servesNext c = false := State.servesNext_eq_false (by simp [hnone])
      exact .moved ((State.movesNext_eq_true_iff h c).2 hpair) hserve
        (by simpa [hserve] using hhist)
        (validTransition_of_one_level (sample_setPin_cases (s.withInput s.hostRx rest) g v c) hpair)
  · exact absurd hreset' hreset
  · exact hstill ((sample_exec hexec c).trans (State.sample_withInput s rx arr c))

/-- A step that serves a channel does not move its pins. -/
theorem State.movesNext_of_serves {s : State} {c : Chan} (h : s.servesNext c = true) :
    s.movesNext c = false := by
  obtain ⟨t, ht⟩ := step_total s
  obtain ⟨-, g, k, hi, -⟩ := (s.servesNext_eq_true_iff c).1 h
  rw [Bool.eq_false_iff, ne_eq, State.movesNext_eq_true_iff ht, not_not]
  rcases stepped_of_step ht with ⟨_, _, hnone, -, -⟩ | ⟨_, _, _, hnone, -, -⟩ | ⟨_, hnone, -, -⟩ |
    ⟨_, rx, arr, -, -, hexec⟩
  · cases hnone.symm.trans hi
  · cases hnone.symm.trans hi
  · cases hnone.symm.trans hi
  · exact (sample_exec hexec c).trans (State.sample_withInput s rx arr c)

/-! ## The EDGE that is due -/

/-- From state `k` of the segment on, an EDGE for `c` comes before the pair moves and before the end. -/
def EdgeDue (c : Chan) (n : Nat) (s : State) (k : Nat) : Prop :=
  ∃ j, k ≤ j ∧ j < n ∧ (after j s).servesNext c = true ∧
    ∀ m, k ≤ m → m < j → (after m s).movesNext c = false

theorem EdgeDue.lt {c : Chan} {n k : Nat} {s : State} (h : EdgeDue c n s k) : k < n := by
  obtain ⟨j, hkj, hjn, -, -⟩ := h
  omega

/-- While an EDGE is due the pair does not move. -/
theorem EdgeDue.not_moves {c : Chan} {n k : Nat} {s : State} (h : EdgeDue c n s k) :
    (after k s).movesNext c = false := by
  obtain ⟨j, hkj, -, hserve, hstill⟩ := h
  rcases Nat.eq_or_lt_of_le hkj with rfl | hlt
  · exact State.movesNext_of_serves hserve
  · exact hstill k le_rfl hlt

/-- A due EDGE that does not come in this step is still due after it. -/
theorem EdgeDue.succ {c : Chan} {n k : Nat} {s : State} (h : EdgeDue c n s k)
    (hnot : (after k s).servesNext c = false) : EdgeDue c n s (k + 1) := by
  obtain ⟨j, hkj, hjn, hserve, hstill⟩ := h
  have hne : k ≠ j := by
    rintro rfl
    cases hserve.symm.trans hnot
  exact ⟨j, by omega, hjn, hserve, fun m hm hmj => hstill m (by omega) hmj⟩

/-- The history is the pin pair, or one valid transition behind it with an EDGE due. -/
def Followed (c : Chan) (n : Nat) (s : State) (k : Nat) : Prop :=
  (after k s).history c = (after k s).sample c ∨
    (validTransition ((after k s).history c) ((after k s).sample c) = true ∧ EdgeDue c n s k)

/-- A segment with `INT_EN` = 1 at every state takes no reset input. -/
theorem NoMissedEdge.not_reset {c : Chan} {n k : Nat} {s : State} (h : NoMissedEdge c n s)
    (hk : k < n) : ¬ (after k s).resetNext := by
  intro hreset
  obtain ⟨-, hon, -⟩ := h
  obtain ⟨hoff, -⟩ := intEn_actRpt_step_of_reset hreset (step_after k s)
  cases hoff.symm.trans (hon (k + 1) hk)

theorem NoMissedEdge.pairStep {c : Chan} {n k : Nat} {s : State} (h : NoMissedEdge c n s)
    (hk : k < n) : PairStep c (after k s) (after (k + 1) s) :=
  pairStep_of_step c (h.not_reset hk) (step_after k s)

theorem NoMissedEdge.followed {c : Chan} {n : Nat} {s : State} (h : NoMissedEdge c n s) (k : Nat)
    (hk : k ≤ n) : Followed c n s k := by
  induction k with
  | zero => exact .inl h.1
  | succ k ih =>
    have hprev := ih (Nat.le_of_succ_le hk)
    cases h.pairStep hk with
    | moved hmove _ hhist hvalid =>
      rcases hprev with heq | ⟨-, hdue⟩
      · obtain ⟨-, -, hserved⟩ := h
        rw [Followed, hhist, heq]
        exact .inr ⟨hvalid, hserved k hk hmove⟩
      · cases hmove.symm.trans hdue.not_moves
    | served _ hhist hpair => exact .inl (hhist.trans hpair.symm)
    | rested hserve hhist hpair =>
      rw [Followed, hhist, hpair]
      exact hprev.imp_right fun ⟨hvalid, hdue⟩ => ⟨hvalid, hdue.succ hserve⟩

/-- At the end of the segment no EDGE is due, so the history is the pin pair. -/
theorem NoMissedEdge.history_at_end {c : Chan} {n : Nat} {s : State} (h : NoMissedEdge c n s) :
    (after n s).history c = (after n s).sample c := by
  rcases h.followed n le_rfl with heq | ⟨-, hdue⟩
  · exact heq
  · exact absurd hdue.lt (lt_irrefl n)

/-- Settles O55: each UPDATE sees what its state's history is behind the pins. -/
theorem noMissedEdgeSeesNoDiagonal : Obligations.NoMissedEdgeSeesNoDiagonal := by
  intro c n s h k hk _
  rcases h.followed k hk.le with heq | ⟨hvalid, -⟩
  · exact .inr heq
  · exact .inl hvalid

/-! ## The true motion -/

@[simp] theorem motion_self (p : Bool × Bool) : motion p p = 0 := by
  revert p
  decide

/-- On a valid transition and on a duplicate DIR is the true motion of the pair
(40_quadrature_decode.md R72, R74). -/
theorem dir_eq_motion {p q : Bool × Bool} (h : p = q ∨ validTransition p q = true) :
    (dir p.1 p.2 q.1 q.2).toInt = motion p q := by
  revert p q
  decide

theorem motionOver_succ (c : Chan) (n : Nat) (s : State) :
    motionOver c (n + 1) s =
      motionOver c n s + motion ((after n s).sample c) ((after (n + 1) s).sample c) :=
  sumTo_succ n _

/-- What a step counts and what the history is behind after it, together, are what the history was
behind before it and what the pair moved. -/
theorem NoMissedEdge.count_step {c : Chan} {n k : Nat} {s : State} (h : NoMissedEdge c n s)
    (hk : k < n) :
    (after k s).countNext c + motion ((after (k + 1) s).history c) ((after (k + 1) s).sample c) =
      motion ((after k s).history c) ((after k s).sample c) +
        motion ((after k s).sample c) ((after (k + 1) s).sample c) := by
  have hfollowed := h.followed k hk.le
  cases h.pairStep hk with
  | moved hmove hserve hhist =>
    rcases hfollowed with heq | ⟨-, hdue⟩
    · rw [State.countNext_of_not_serves hserve, hhist, heq, motion_self]
    · cases hmove.symm.trans hdue.not_moves
  | served hserve hhist hpair =>
    rw [State.countNext_of_serves hserve, hhist, hpair, motion_self, add_zero, add_zero]
    exact dir_eq_motion (hfollowed.imp_right And.left)
  | rested hserve hhist hpair =>
    rw [State.countNext_of_not_serves hserve, hhist, hpair, motion_self, zero_add, add_zero]

/-- Over the first `k` steps the counts are the true motion but for what the history is behind. -/
theorem NoMissedEdge.sum_count {c : Chan} {n : Nat} {s : State} (h : NoMissedEdge c n s) (k : Nat)
    (hk : k ≤ n) :
    sumTo k (fun j => (after j s).countNext c) +
      motion ((after k s).history c) ((after k s).sample c) = motionOver c k s := by
  induction k with
  | zero =>
    obtain ⟨hstart, -, -⟩ := h
    rw [after_zero, hstart, motion_self]
    rfl
  | succ k ih =>
    have hprev := ih (Nat.le_of_succ_le hk)
    have hstep := h.count_step hk
    rw [sumTo_succ, motionOver_succ]
    omega

/-- Settles O54: the ledger of the run, whose counts are the true motion since the history ends where
the pins are. -/
theorem countIsExactWithoutMissedEdges : Obligations.CountIsExactWithoutMissedEdges := by
  intro c n s h hrst
  refine ⟨?_, h.history_at_end⟩
  have hcounts := h.sum_count n le_rfl
  rw [h.history_at_end, motion_self, add_zero] at hcounts
  rw [← hcounts]
  exact positionIsTheLedgerOfTheRun c n s fun k hk =>
    ((after k s).clearsNext_eq_false_iff c).2 ⟨hrst k hk, h.not_reset hk⟩

end Sys2Proof.Machine
end

section
/-! SUPPORT. The host port byte by byte: when it waits, that events and pin changes do not touch it, how
a whole operation and a whole command arrive, and that every step keeps states well formed. -/

namespace Sys2Proof.Machine

/-! ## When the host port waits -/

/-- Bytes wait exactly while their operation is longer (30_encoding.md R54, R57). -/
theorem hostRxWf_cons_iff (b : Byte) (rest : List Byte) :
    hostRxWf (b :: rest) = true ↔ (b :: rest).length < hostLength b := by
  simp only [hostRxWf, hostLength, Bool.and_eq_true, decide_eq_true_eq, List.length_cons]
  split
  · next hadd => simp only [hadd, true_and]; omega
  · next hadd => simp [hadd]

/-- Bytes in which an operation has begun and not ended are answered by waiting. -/
theorem decodeHost_of_waiting {bs : List Byte} (hwf : hostRxWf bs = true) :
    ∃ e, decodeHost bs = .error e := by
  cases bs with
  | nil => exact ⟨_, rfl⟩
  | cons b rest =>
    have hshort := (hostRxWf_cons_iff b rest).1 hwf
    rcases decodeHost_cons_cases b rest with ⟨-, hwait⟩ | ⟨hlong, -⟩
    · exact ⟨_, hwait⟩
    · omega

/-- Where the decoder waits, an operation has begun and not ended. -/
theorem hostRxWf_of_decodeHost_error {bs : List Byte} {e : DecodeWait}
    (h : decodeHost bs = .error e) : hostRxWf bs = true := by
  cases bs with
  | nil => rfl
  | cons b rest =>
    rcases decodeHost_cons_cases b rest with ⟨hshort, -⟩ | ⟨-, i, hrun⟩
    · exact (hostRxWf_cons_iff b rest).2 hshort
    · cases hrun.symm.trans h

/-- The byte that ends the operation under way leaves no byte behind. -/
theorem decodeHost_append_left {rx : List Byte} {b : Byte} {i : Instr} {left : List Byte}
    (hwf : hostRxWf rx = true) (h : decodeHost (rx ++ [b]) = .ok (i, left)) : left = [] := by
  cases rx with
  | nil =>
    rcases decodeHost_cons_cases b [] with ⟨-, hwait⟩ | ⟨hlong, j, hrun⟩
    · cases hwait.symm.trans h
    · cases hrun.symm.trans h
      exact List.drop_eq_nil_of_le (by unfold hostLength; split <;> simp)
  | cons b0 rest =>
    have hshort := (hostRxWf_cons_iff b0 rest).1 hwf
    rcases decodeHost_cons_cases b0 (rest ++ [b]) with ⟨-, hwait⟩ | ⟨-, j, hrun⟩
    · cases hwait.symm.trans h
    · cases hrun.symm.trans h
      refine List.drop_eq_nil_of_le ?_
      simp only [List.length_cons, List.length_append, List.length_nil] at hshort ⊢
      omega

/-- What is waiting was waiting before its last byte came. -/
theorem hostRxWf_of_append {rx more : List Byte} (h : hostRxWf (rx ++ more) = true) :
    hostRxWf rx = true := by
  cases rx with
  | nil => rfl
  | cons b rest =>
    rw [List.cons_append, hostRxWf_cons_iff, List.length_cons, List.length_append] at h
    rw [hostRxWf_cons_iff, List.length_cons]
    omega

/-- A byte after which the port goes on waiting is put to the bytes waiting. -/
theorem step_of_waitingByte {s : State} {b : Byte} {rest : List Arrival}
    (harr : s.arrivals = .hostByte b :: rest) (hwait : hostRxWf (s.hostRx ++ [b]) = true) :
    step s = .next (s.withInput (s.hostRx ++ [b]) rest) := by
  obtain ⟨e, he⟩ := decodeHost_of_waiting hwait
  exact step_of_quiet s _ (by
    simp [State.fetch, harr, State.receive, State.receiveByte, he, State.withInput])

/-! ## Events and pin changes leave the host port alone -/

/-- A step that takes an event or a pin change neither reads nor writes the bytes waiting, and hands out
no result. -/
theorem step_of_notHost {s t : State} {a : Arrival} {rest : List Arrival} (ha : a.notHost = true)
    (harr : s.arrivals = a :: rest) (h : step s = .next t) :
    t.hostRx = s.hostRx ∧ t.arrivals = rest ∧ t.results = s.results ∧
      ∀ rx, step (s.withInput rx s.arrivals) = .next (t.withInput rx t.arrivals) := by
  cases a with
  | hostByte b => cases ha
  | reset => cases ha
  | pin g v =>
    have hset (u : State) (hu : u.arrivals = .pin g v :: rest) :
        step u = .next ((u.withInput u.hostRx rest).setPin g v) :=
      step_of_quiet u _ (by simp [State.fetch, hu, State.receive, State.withInput])
    cases (hset s harr).symm.trans h
    exact ⟨rfl, rfl, rfl, fun rx => hset (s.withInput rx s.arrivals) harr⟩
  | event w =>
    have hexec : execEdge (eventGpio w) (eventKind w) (s.withInput s.hostRx rest) = .next t :=
      (step_of_event harr).symm.trans h
    obtain ⟨-, hrx, hrest⟩ := exec_keeps_input (i := decodeEvent w) hexec
    refine ⟨hrx, hrest, ?_, fun rx => ?_⟩
    · rcases execEdge_cases (eventGpio w) (eventKind w) (s.withInput s.hostRx rest) with
        ⟨-, e⟩ | ⟨c, -, -, e⟩ | ⟨c, -, -, e⟩ <;> (rw [e] at hexec; cases hexec; simp)
    · have hother := exec_withInput (i := decodeEvent w) rx rest hexec
      rw [step_of_event (s := s.withInput rx s.arrivals) harr, hrest]
      exact hother

/-- A run over events and pin changes alone neither reads nor writes the bytes waiting, and hands out no
result. -/
theorem after_notHost (mid : List Arrival) {s : State} {rest : List Arrival}
    (hmid : mid.all Arrival.notHost = true) (harr : s.arrivals = mid ++ rest) :
    (after mid.length s).hostRx = s.hostRx ∧ (after mid.length s).arrivals = rest ∧
      (after mid.length s).results = s.results ∧
      ∀ rx, (after mid.length s).withInput rx rest =
        after mid.length (s.withInput rx s.arrivals) := by
  induction mid generalizing s with
  | nil => exact ⟨rfl, harr, rfl, fun rx => by rw [harr]; rfl⟩
  | cons a mid ih =>
    rw [List.all_cons, Bool.and_eq_true] at hmid
    obtain ⟨ha, hmid⟩ := hmid
    obtain ⟨t, ht⟩ := step_total s
    obtain ⟨hrx, hrest, hres, hother⟩ := step_of_notHost ha harr ht
    obtain ⟨hrx', hrest', hres', hother'⟩ := ih hmid hrest
    rw [List.length_cons, after_succ _ ht]
    refine ⟨hrx'.trans hrx, hrest', hres'.trans hres, fun rx => ?_⟩
    rw [after_succ _ (hother rx), hother' rx]

/-- Settles O18: fewer than five bytes wait, events and pin changes pass by the port, and five bytes are
the encoding of the ADDPOS they decode to. -/
theorem addposWaitsForItsOperandBytes : Obligations.AddposWaitsForItsOperandBytes := by
  intro s hwf hbusy
  obtain ⟨b0, rx, hrx⟩ := List.exists_cons_of_ne_nil hbusy
  have hstarted : inGroup b0 opcAddpos = true := by
    rw [hrx, hostRxWf, Bool.and_eq_true] at hwf
    exact hwf.1
  have hfive : hostLength b0 = 5 := if_pos hstarted
  refine ⟨fun b rest harr hlen => ?waits, fun mid rest harr hmid => ?between,
    fun b rest harr hlen => ?runs⟩
  case waits =>
    refine step_of_waitingByte harr ?_
    rw [hrx] at hlen ⊢
    rw [List.cons_append, hostRxWf_cons_iff, hfive]
    simp only [List.length_cons, List.length_append, List.length_nil] at hlen ⊢
    omega
  case between =>
    obtain ⟨hkeep, hrest, -, hother⟩ := after_notHost mid hmid harr
    exact ⟨hkeep, hrest, by simpa [State.withInput, hrest] using hother []⟩
  case runs =>
    obtain ⟨c, rfl⟩ := (inGroup_iff rfl b0).1 hstarted
    rw [hrx, List.length_cons] at hlen
    rcases decodeHost_cons_cases (opcAddpos + chanBit c) (rx ++ [b]) with ⟨hshort, -⟩ | ⟨-, i, hrun⟩
    · rw [hfive, List.length_cons, List.length_append, List.length_singleton] at hshort
      omega
    · obtain ⟨imm, rfl, htail⟩ := decodeHost_addpos_inv hrun
      have hnone := decodeHost_append_left (hrx ▸ hwf) hrun
      have hall : decodeHost (s.hostRx ++ [b]) = .ok (.addpos c imm, []) := by
        rw [hrx, List.cons_append, hrun, hnone]
      obtain ⟨-, used, hused, hbytes⟩ := encode_of_decodeHost hall
      cases hused
      obtain ⟨t, ht⟩ := exec_total (.addpos c imm) { s with hostRx := [], arrivals := rest }
      exact ⟨c, imm, t, hbytes.trans (List.append_nil _), ht, (step_of_hostByte harr hall).trans ht⟩

/-! ## Whole operations and commands -/

/-- Bytes that all wait are put to the bytes waiting, one step each. -/
theorem after_waitingBytes (bs : List Byte) {s : State} {rest : List Arrival}
    (harr : s.arrivals = bs.map .hostByte ++ rest) (hwait : hostRxWf (s.hostRx ++ bs) = true) :
    after bs.length s = s.withInput (s.hostRx ++ bs) rest := by
  induction bs generalizing s with
  | nil =>
    rw [List.append_nil, ← show s.arrivals = rest from harr]
    rfl
  | cons b bs ih =>
    rw [List.append_cons] at hwait
    have hfirst := step_of_waitingByte harr (hostRxWf_of_append hwait)
    have hrest := ih (s := s.withInput (s.hostRx ++ [b]) (bs.map .hostByte ++ rest)) rfl hwait
    rw [List.length_cons, after_succ _ hfirst]
    simpa using hrest

/-- Of a well-formed host operation every byte but the last waits. -/
theorem encode_host_eq_append {i : Instr} {bs : List Byte} (henc : encode i = .host bs) :
    ∃ start b, bs = start ++ [b] ∧ hostRxWf start = true := by
  cases i with
  | addpos c imm =>
    cases henc
    exact ⟨[opcAddpos + chanBit c, _, _, _], _, rfl, by cases c <;> rfl⟩
  | edge g k => cases henc
  | _ => cases henc; exact ⟨[], _, rfl, rfl⟩

/-- The arrivals of one operation, on an idle port, have its effect and leave the port idle. -/
theorem exec_of_arrivalsOf {i : Instr} {s : State} {rest : List Arrival} (hwf : i.wf = true)
    (hidle : s.hostRx = []) (harr : s.arrivals = arrivalsOf i ++ rest) :
    exec i (s.withInput [] rest) = .next (after (arrivalsOf i).length s) := by
  cases henc : encode i with
  | event w =>
    cases i with
    | edge g k =>
      cases henc
      have hstep : step s = exec (.edge g k) (s.withInput [] rest) := by
        rw [step_of_event harr, decodeEvent_encode, ← hidle]
        rfl
      exact hstep.symm.trans (step_after 0 s)
    | _ => cases henc
  | host bs =>
    obtain ⟨start, b, rfl, hwait⟩ := encode_host_eq_append henc
    rw [arrivalsOf, henc] at harr ⊢
    have hbytes : s.arrivals = start.map .hostByte ++ (.hostByte b :: rest) := by
      simpa using harr
    have hwaited : after start.length s = s.withInput start (.hostByte b :: rest) := by
      have h := after_waitingBytes start hbytes (by rwa [hidle])
      rwa [hidle, List.nil_append] at h
    have hread : decodeHost (start ++ [b]) = .ok (i, []) := by
      simpa using decodeHost_encode hwf henc []
    have hlast : step (after start.length s) = exec i (s.withInput [] rest) := by
      rw [hwaited]
      exact step_of_hostByte rfl hread
    rw [← hlast, List.length_map, List.length_append, List.length_singleton]
    exact step_after start.length s

/-- The arrivals of a list of operations, on an idle port, have the effect of the list. -/
theorem execAll_of_arrivals (is : List Instr) {s : State} {rest : List Arrival}
    (hwf : is.all Instr.wf = true) (hidle : s.hostRx = [])
    (harr : s.arrivals = is.flatMap arrivalsOf ++ rest) :
    execAll is (s.withInput [] rest) = some (after (is.flatMap arrivalsOf).length s) := by
  induction is generalizing s with
  | nil =>
    rw [← hidle, ← show s.arrivals = rest from harr]
    rfl
  | cons i is ih =>
    rw [List.all_cons, Bool.and_eq_true] at hwf
    rw [List.flatMap_cons, List.append_assoc] at harr
    have hfirst := exec_of_arrivalsOf hwf.1 hidle harr
    obtain ⟨-, hidle', harr'⟩ := exec_keeps_input hfirst
    have hfirst' := exec_withInput [] rest hfirst
    rw [State.withInput_withInput] at hfirst'
    rw [execAll_cons is hfirst', ih hwf.2 hidle' harr', List.flatMap_cons, List.length_append,
      after_add]

/-- Settles O45: a command is the list of its operations. -/
theorem commandRunsItsOperations : Obligations.CommandRunsItsOperations := by
  intro k s rest hwf hidle harr
  have hrun := execAll_of_arrivals k.expand hwf hidle harr
  rwa [← hidle] at hrun

/-! ## The two reads of return-encoders -/

/-- Settles O46: each read is the step of its one byte on an idle port, and what comes between hands out
no result. -/
theorem returnEncodersReadsAtTwoInstants : Obligations.ReturnEncodersReadsAtTwoInstants := by
  intro s mid rest hidle hmid harr
  have hfirst : after (mid.length + 1) s = after mid.length
      ((s.withInput [] (mid ++ .hostByte 0x11 :: rest)).respond (.bytes (le32 (s.memRead .one)))) :=
    after_succ mid.length (step_of_rdposByte (c := .one) hidle harr)
  obtain ⟨hidle', harr', hres, -⟩ := after_notHost mid (rest := .hostByte 0x11 :: rest) hmid
    (s := (s.withInput [] (mid ++ .hostByte 0x11 :: rest)).respond
      (.bytes (le32 (s.memRead .one)))) rfl
  rw [← hfirst] at hidle' harr' hres
  have hsecond := step_of_rdposByte (c := .two) hidle' harr'
  have hend := Host.Outcome.next.inj ((step_after (mid.length + 1) s).symm.trans hsecond)
  have hresults : (after (mid.length + 2) s).results = s.results ++
      [.bytes (le32 (s.memRead .one)),
        .bytes (le32 ((after (mid.length + 1) s).memRead .two))] := by
    rw [hend, State.results_respond, hres]
    simp
  refine ⟨hresults, ?_, by rw [hend]; rfl⟩
  rw [hresults, List.drop_left]
  simp [responseBytes]

/-- Two reads with a counted forward step of each channel between them. -/
def straddled : State :=
  { State.reset with
    intEn := true
    pins := [2, 4]
    arrivals := [.hostByte 0x10, .event 0x0202, .event 0x0204, .hostByte 0x11] }

/-- Settles O47: channel 1 counts first, so the positions are (0, 0), (1, 0) and (1, 1), and the response
is (0, 1). -/
theorem returnEncodersIsNotASnapshot : Obligations.ReturnEncodersIsNotASnapshot :=
  ⟨straddled, [.event 0x0202, .event 0x0204], 0, 1, rfl, rfl, rfl, by decide, by decide⟩

/-! ## Every step keeps states well formed -/

/-- The four calls of one TGLIRQ are for encoder pins, with both edge kinds (43_control.md R100). -/
theorem enablesFor_wf (cfg : Config) (v : Bool) :
    (enablesFor cfg v).all (EnableCall.wf cfg) = true := by
  simp [enablesFor, EnableCall.wf]

theorem State.wf_iff (s : State) :
    s.wf = true ↔ pinsWf s.pins = true ∧ hostRxWf s.hostRx = true ∧
      s.results.all HostResult.wf = true ∧ s.enableCalls.all (EnableCall.wf s.config) = true ∧
      s.enableCalls.length % 4 = 0 := by
  simp [State.wf, and_assoc]

/-- States with the same pins, ports and configuration are well formed together. -/
theorem State.wf_congr {s t : State} (hpins : t.pins = s.pins) (hrx : t.hostRx = s.hostRx)
    (hres : t.results = s.results) (hcalls : t.enableCalls = s.enableCalls)
    (hconfig : t.config = s.config) : t.wf = s.wf := by
  rw [State.wf, hpins, hrx, hres, hcalls, hconfig, State.wf]

theorem State.wf_memWrite (s : State) (c : Chan) (v : Position) : (s.memWrite c v).wf = s.wf :=
  State.wf_congr (by simp) (by simp) (by simp) (by simp) (by simp)

theorem State.wf_update (s : State) (c : Chan) (a b : Bool) : (s.update c a b).wf = s.wf :=
  State.wf_congr (by simp) (by simp) (by simp) (by simp) (by simp)

/-- A response of a port's width keeps the state well formed (30_encoding.md R50). -/
theorem State.wf_respond {s : State} {r : HostResult} (h : s.wf = true) (hr : r.wf = true) :
    (s.respond r).wf = true := by
  rw [State.wf_iff] at h ⊢
  obtain ⟨hpins, hrx, hres, hcalls, hfour⟩ := h
  exact ⟨hpins, hrx, by simp [hres, hr], hcalls, hfour⟩

theorem State.wf_driveEnables {s : State} (v : Bool) (h : s.wf = true) :
    (s.driveEnables v).wf = true := by
  rw [State.wf_iff] at h ⊢
  obtain ⟨hpins, hrx, hres, hcalls, hfour⟩ := h
  refine ⟨hpins, hrx, hres, ?_, ?_⟩
  · rw [State.enableCalls_driveEnables, State.config_driveEnables, List.all_append, hcalls,
      enablesFor_wf]
    rfl
  · rw [State.enableCalls_driveEnables, List.length_append, enablesFor]
    simp [hfour]

theorem State.wf_withInput {s : State} {rx : List Byte} (arr : List Arrival) (h : s.wf = true)
    (hrx : hostRxWf rx = true) : (s.withInput rx arr).wf = true := by
  rw [State.wf_iff] at h ⊢
  obtain ⟨hpins, -, hres, hcalls, hfour⟩ := h
  exact ⟨hpins, hrx, hres, hcalls, hfour⟩

theorem State.wf_setPin {s : State} (g : PinId) (v : Bool) (h : s.wf = true) :
    (s.setPin g v).wf = true := by
  rw [State.wf_iff] at h ⊢
  obtain ⟨hpins, hrx, hres, hcalls, hfour⟩ := h
  exact ⟨pinsWf_setPinLevel s.pins g v hpins, hrx, hres, hcalls, hfour⟩

/-- Taking an arrival keeps the state well formed: bytes left over there are none. -/
theorem wf_fetch {s : State} (h : s.wf = true) : s.fetch.state.wf = true := by
  have hrx : hostRxWf s.hostRx = true := ((State.wf_iff s).1 h).2.1
  rcases s.fetch_cases with ⟨-, hf⟩ | ⟨b, rest, i, left, -, hdec, hf⟩ |
    ⟨b, rest, e, -, hdec, hf⟩ | ⟨w, rest, -, hf⟩ | ⟨g, v, rest, -, hf⟩ | ⟨rest, -, hf⟩ <;> rw [hf]
  · exact h
  · obtain rfl := decodeHost_append_left hrx hdec
    exact State.wf_withInput rest h rfl
  · exact State.wf_withInput rest h (hostRxWf_of_decodeHost_error hdec)
  · exact State.wf_withInput rest h hrx
  · exact State.wf_setPin g v (State.wf_withInput rest h hrx)
  · exact State.wf_withInput (rx := []) rest h rfl

/-- Every operation keeps the state well formed. -/
theorem wf_exec {i : Instr} {s t : State} (hwf : s.wf = true) (h : exec i s = .next t) :
    t.wf = true := by
  cases i with
  | rdpos c => cases h; exact State.wf_respond hwf rfl
  | rstpos c => cases h; exact (State.wf_memWrite s c _).trans hwf
  | addpos c imm => cases h; exact (State.wf_memWrite s c _).trans hwf
  | tglirq =>
    cases h
    exact State.wf_respond (State.wf_driveEnables (s := s.setIntEn _) _ hwf) rfl
  | tglrpt => cases h; exact hwf
  | unrec b => cases h; exact hwf
  | edge g k =>
    rw [exec_edge] at h
    rcases execEdge_cases g k s with ⟨-, e⟩ | ⟨c, -, -, e⟩ | ⟨c, -, -, e⟩ <;>
      (rw [e] at h; cases h)
    · exact hwf
    · exact hwf
    · exact (State.wf_update s c _ _).trans hwf

/-- Settles O57: taking an arrival and running an operation each keep the state well formed. -/
theorem stepKeepsStatesWellFormed : Obligations.StepKeepsStatesWellFormed := by
  intro s t hwf h
  have hfetch := wf_fetch hwf
  rcases step_cases h with hf | ⟨i, u, hf, hexec⟩ <;> rw [hf] at hfetch
  · exact hfetch
  · exact wf_exec hfetch hexec

/-- Settles O56: with no pin high and empty ports nothing is to check. -/
theorem resetStateIsWellFormed : Obligations.ResetStateIsWellFormed :=
  (State.wf_iff _).2 ⟨rfl, rfl, rfl, rfl, rfl⟩

end Sys2Proof.Machine
end

section
/-! SUPPORT. Single steps and short sequences: what each arrival does, pin levels as data, sequences of
UPDATEs, two notifications, and who drives the outputs. -/

namespace Sys2Proof.Machine

/-! ## What each arrival does -/

theorem step_of_idle {s : State} (h : s.arrivals = []) : step s = .next s :=
  step_of_quiet s s (by simp [State.fetch, h])

/-- The step that takes `PIN g = v` (30_encoding.md section 6). -/
theorem step_of_pin {s : State} {g : PinId} {v : Bool} {rest : List Arrival}
    (h : s.arrivals = .pin g v :: rest) :
    step s = .next ({ s with arrivals := rest }.setPin g v) :=
  step_of_quiet s _ (by simp [State.fetch, h, State.receive])

/-- A byte after which the decoder waits is put to the bytes waiting (30_encoding.md R57). -/
theorem step_of_undecodedByte {s : State} {b : Byte} {rest : List Arrival} {e : DecodeWait}
    (harr : s.arrivals = .hostByte b :: rest) (hdec : decodeHost (s.hostRx ++ [b]) = .error e) :
    step s = .next { s with hostRx := s.hostRx ++ [b], arrivals := rest } :=
  step_of_waitingByte harr (hostRxWf_of_decodeHost_error hdec)

/-- Settles O17: one equation of `step` per kind of arrival. -/
theorem stepRunsTheDecodedOperation : Obligations.StepRunsTheDecodedOperation :=
  fun _ => ⟨step_of_idle, fun _ _ => step_of_event, fun _ _ _ _ => step_of_hostByte,
    fun _ _ _ => step_of_undecodedByte, fun _ _ _ => step_of_pin, fun _ => step_of_reset⟩

/-- Settles O19: the step is one `setPin`, which writes the pin levels alone. -/
theorem pinDirectiveSetsOnePin : Obligations.PinDirectiveSetsOnePin :=
  fun _ g v _ harr => ⟨_, step_of_pin harr, fun p => State.pin_setPin _ g p v, rfl⟩

/-- Settles O9: `restart` keeps both records. -/
theorem resetKeepsThePortRecords : Obligations.ResetKeepsThePortRecords :=
  fun _ _ harr => ⟨_, step_of_reset harr, State.results_restart _, State.enableCalls_restart _⟩

/-- Settles O58: `restart` empties the receive buffer, so the next byte is decoded alone. -/
theorem resetDiscardsTheWaitingBytes : Obligations.ResetDiscardsTheWaitingBytes := by
  refine ⟨rfl, fun s rest harr => ⟨_, step_of_reset harr, State.hostRx_restart _, ?_⟩⟩
  rintro b later i left rfl hdec
  simp [State.nextInstr, State.fetch, State.receive, State.receiveByte, hdec]

/-! ## Pin levels as data -/

/-- The canonical form is the strictly rising order of the identifiers. -/
theorem pinsWf_iff_pairwise (high : List PinId) :
    pinsWf high = true ↔ high.Pairwise (fun p q => p.toNat < q.toNat) := by
  induction high with
  | nil => simp [pinsWf]
  | cons p ps ih => rw [pinsWf_cons, List.pairwise_cons, ih]

theorem pinLevel_eq_true_iff (high : List PinId) (g : PinId) :
    pinLevel high g = true ↔ g ∈ high := by
  rw [pinLevel, List.contains_iff_mem]

/-- Settles O20: equal levels are equal members, and two strictly rising lists with the same members are
the same list. -/
theorem equalPinLevelsAreEqualData : Obligations.EqualPinLevelsAreEqualData := by
  intro high high' hwf hwf' hlevel
  have hmem (p : PinId) : p ∈ high ↔ p ∈ high' := by
    rw [← pinLevel_eq_true_iff, ← pinLevel_eq_true_iff, hlevel p]
  have : Std.Irrefl (fun p q : PinId => p.toNat < q.toNat) := ⟨fun p => lt_irrefl p.toNat⟩
  have : Std.Antisymm (fun p q : PinId => p.toNat < q.toNat) :=
    ⟨fun p q hpq hqp => absurd hqp (lt_asymm hpq)⟩
  exact ((pinsWf_iff_pairwise high).1 hwf).eq_of_mem_iff ((pinsWf_iff_pairwise high').1 hwf') hmem

/-! ## UPDATEs in sequence -/

/-- Settles O24: on a diagonal DIR is decided by the new levels alone. -/
theorem diagonalTransitionCountsOneStep : Obligations.DiagonalTransitionCountsOneStep := by
  intro s c a b ha hb
  refine ⟨?_, State.history_update_same s c a b, sameButChannel_update s c a b⟩
  have hdir : (dir (s.history c).1 (s.history c).2 a b).toInt = if a = b then -1 else 1 := by
    generalize (s.history c).1 = la at ha
    generalize (s.history c).2 = lb at hb
    revert la lb a b
    decide
  rw [toInt_memRead_update, hdir]

theorem SameButChannel.refl (c : Chan) (s : State) : SameButChannel c s s := by
  simp [SameButChannel]

theorem SameButChannel.trans {c : Chan} {s t u : State} (h : SameButChannel c s t)
    (h' : SameButChannel c t u) : SameButChannel c s u := by
  obtain ⟨hchan, hen, hrpt, hrx, hres, hcalls, hpins, hconfig, harr⟩ := h
  obtain ⟨hchan', hen', hrpt', hrx', hres', hcalls', hpins', hconfig', harr'⟩ := h'
  exact ⟨fun d hd => (hchan' d hd).trans (hchan d hd), hen'.trans hen, hrpt'.trans hrpt,
    hrx'.trans hrx, hres'.trans hres, hcalls'.trans hcalls, hpins'.trans hpins,
    hconfig'.trans hconfig, harr'.trans harr⟩

theorem State.updates_cons (s : State) (c : Chan) (p : Bool × Bool) (rest : List (Bool × Bool)) :
    s.updates c (p :: rest) = (s.update c p.1 p.2).updates c rest := rfl

/-- Settles O27: by induction on the samples; the first UPDATE leaves its sample as the history that the
rest is judged against. -/
theorem updatesAddTheNetSum : Obligations.UpdatesAddTheNetSum := by
  intro samples
  induction samples with
  | nil => exact fun s c => ⟨by simp [State.updates, dirSum], rfl, SameButChannel.refl c s⟩
  | cons p rest ih =>
    intro s c
    obtain ⟨hpos, hhist, hframe⟩ := ih (s.update c p.1 p.2) c
    rw [State.history_update_same] at hpos hhist
    rw [State.updates_cons]
    refine ⟨?_, ?_, (sameButChannel_update s c p.1 p.2).trans hframe⟩
    · rw [hpos, State.memRead_update_same, dirSum_cons, BitVec.ofInt_add,
        Direction.addend_eq_ofInt, add_assoc]
    · rw [hhist]
      cases rest <;> rfl

/-! ## Two notifications -/

/-- The channel that an event for pin `g` serves, if the event port takes it (41_interrupt_router.md R81,
R85). -/
def State.target (s : State) (g : PinId) : Option Chan := if s.intEn then route s.config g else none

/-- The service of a channel, or nothing. -/
def State.deliver (s : State) : Option Chan → State
  | none => s
  | some c => s.serve c

theorem State.serve_eq_update (s : State) (c : Chan) :
    s.serve c = s.update c (s.sample c).1 (s.sample c).2 := rfl

/-- EDGE reads its pin only to find the channel it serves. -/
theorem exec_edge_eq_deliver (g : PinId) (k : EdgeKind) (s : State) :
    exec (.edge g k) s = .next (s.deliver (s.target g)) := by
  rw [exec_edge]
  rcases execEdge_cases g k s with ⟨hroute, e⟩ | ⟨c, -, hoff, e⟩ | ⟨c, hroute, hon, e⟩ <;> rw [e]
  · simp [State.target, hroute, State.deliver]
  · simp [State.target, hoff, State.deliver]
  · simp [State.target, hroute, hon, State.deliver, State.serve_eq_update]

theorem State.target_deliver (s : State) (o : Option Chan) (g : PinId) :
    (s.deliver o).target g = s.target g := by
  cases o with
  | none => rfl
  | some c => simp [State.target, State.deliver, State.serve_eq_update]

@[simp] theorem State.sample_update (s : State) (c d : Chan) (a b : Bool) :
    (s.update c a b).sample d = s.sample d := State.sample_setChan s d c _

/-- One channel after an UPDATE with the levels `a` and `b` (40_quadrature_decode.md R73). -/
def Channel.updated (x : Channel) (a b : Bool) : Channel :=
  { pos := add32 x.pos (dir x.lastA x.lastB a b).addend, lastA := a, lastB := b }

theorem State.update_eq_setChan (s : State) (c : Chan) (a b : Bool) :
    s.update c a b = s.setChan c ((s.chan c).updated a b) := rfl

/-- UPDATEs of different channels commute. -/
theorem State.update_comm (s : State) {c d : Chan} (a b a' b' : Bool) (h : d ≠ c) :
    (s.update c a b).update d a' b' = (s.update d a' b').update c a b := by
  rw [State.update_eq_setChan s c, State.update_setChan_other _ _ _ _ _ _ h.symm,
    State.update_eq_setChan _ c, State.chan_update_other _ _ _ _ _ h.symm]

/-- Services commute: of one channel because they are the same, of two because each reads and writes its
own channel. -/
theorem State.deliver_comm (s : State) (o o' : Option Chan) :
    (s.deliver o).deliver o' = (s.deliver o').deliver o := by
  match o, o' with
  | none, _ | some _, none => rfl
  | some c, some d =>
    by_cases h : d = c
    · rw [h]
    · simp only [State.deliver, State.serve_eq_update, State.sample_update]
      exact State.update_comm s _ _ _ _ h

theorem execAll_edge_edge (s : State) (g g' : PinId) (k k' : EdgeKind) :
    execAll [.edge g k, .edge g' k'] s =
      some ((s.deliver (s.target g)).deliver (s.target g')) := by
  rw [execAll_cons _ (exec_edge_eq_deliver g k s), execAll_cons _ (exec_edge_eq_deliver g' k' _),
    State.target_deliver, execAll]

/-- Settles O33: both orders deliver to the same two targets. -/
theorem notificationOrderIsUnobservable : Obligations.NotificationOrderIsUnobservable := by
  intro s g g' k k'
  refine ⟨_, execAll_edge_edge s g g' k k', ?_⟩
  rw [execAll_edge_edge, State.deliver_comm]

/-- Settles O31: nothing is delivered, and what the event port still takes are the pins of no channel. -/
theorem edgeWhileDisabledIsNotDelivered : Obligations.EdgeWhileDisabledIsNotDelivered := by
  intro s g k hoff
  refine ⟨execEdge_of_disabled g k hoff, ?_⟩
  rw [← route_eq_none_iff, State.edgeEnabled, hoff, Bool.false_or, Option.isNone_iff_eq_none]

/-! ## Position access -/

theorem State.memWrite_setIntEn (s : State) (c : Chan) (p : Position) (v : Bool) :
    (s.setIntEn v).memWrite c p = (s.memWrite c p).setIntEn v := by cases c <;> rfl

@[simp] theorem State.memRead_setIntEn (s : State) (v : Bool) (c : Chan) :
    (s.setIntEn v).memRead c = s.memRead c := State.memRead_congr (State.chan_setIntEn s v c)

/-- The three position accesses commute with a write of `INT_EN`. -/
theorem exec_positionAccess_setIntEn {i : Instr} {n : Chan} {s t : State} (v : Bool)
    (hi : i = .rdpos n ∨ i = .rstpos n ∨ ∃ imm, i = .addpos n imm) (h : exec i s = .next t) :
    exec i (s.setIntEn v) = .next (t.setIntEn v) := by
  rcases hi with rfl | rfl | ⟨imm, rfl⟩ <;> cases h
  · rw [exec_rdpos, State.memRead_setIntEn]
    rfl
  · rw [exec_rstpos, State.memWrite_setIntEn]
  · rw [exec_addpos, State.memRead_setIntEn, State.memWrite_setIntEn]

/-- Settles O39: the accesses commute with a write of either control bit. -/
theorem positionAccessIgnoresTheControlBits : Obligations.PositionAccessIgnoresTheControlBits := by
  intro i n s v w hi
  have hne : i ≠ .tglrpt := by
    rintro rfl
    simp at hi
  obtain ⟨t, ht⟩ := exec_total i s
  exact ⟨t, ht, exec_setActRpt w hne (exec_positionAccess_setIntEn v hi ht)⟩

@[simp] theorem State.memWrite_memWrite (s : State) (c : Chan) (v w : Position) :
    (s.memWrite c v).memWrite c w = s.memWrite c w := by
  simp [State.memWrite]

/-- Settles O40: a response changes no position, and a second write of 0 overwrites the first. -/
theorem readsRepeatAndResetsAreIdempotent : Obligations.ReadsRepeatAndResetsAreIdempotent := by
  intro c s
  refine ⟨.bytes (le32 (s.memRead c)), ?once, ?twice, ?resets⟩
  case once => rw [execAll_cons _ (exec_rdpos c s), execAll]
  case twice =>
    rw [execAll_cons _ (exec_rdpos c s), execAll_cons _ (exec_rdpos c _), execAll,
      State.memRead_respond]
  case resets =>
    rw [execAll_cons _ (exec_rstpos c s), execAll_cons _ (exec_rstpos c _),
      execAll_cons _ (exec_rstpos c s), execAll, State.memWrite_memWrite, execAll]

/-! ## Who drives the outputs -/

/-- TGLIRQ drives the enable output and responds with the new bit, RDPOS responds with the position, and
the other operations hand out nothing (30_encoding.md R50). -/
theorem exec_outputs {i : Instr} {s t : State} (h : exec i s = .next t) :
    (i = .tglirq ∧ t.enableCalls = s.enableCalls ++ enablesFor s.config t.intEn ∧
      t.results = s.results ++ [.bit t.intEn]) ∨
    (t.enableCalls = s.enableCalls ∧ (t.results = s.results ∨
      ∃ c, i = .rdpos c ∧ t.results = s.results ++ [.bytes (le32 (s.memRead c))])) := by
  cases i with
  | rdpos c => cases h; exact .inr ⟨by simp, .inr ⟨c, rfl, by simp⟩⟩
  | rstpos c => cases h; exact .inr ⟨by simp, .inl (by simp)⟩
  | addpos c imm => cases h; exact .inr ⟨by simp, .inl (by simp)⟩
  | tglirq => cases h; exact .inl ⟨rfl, by simp, by simp⟩
  | tglrpt => cases h; exact .inr ⟨rfl, .inl rfl⟩
  | unrec b => cases h; exact .inr ⟨rfl, .inl rfl⟩
  | edge g k =>
    rw [exec_edge] at h
    rcases execEdge_cases g k s with ⟨-, e⟩ | ⟨c, -, -, e⟩ | ⟨c, -, -, e⟩ <;>
      (rw [e] at h; cases h; simp)

/-- Settles O44: a step that runs no operation hands out nothing, and of the operations TGLIRQ and RDPOS
are the ones that do. -/
theorem outputsAreDrivenOnlyByTheirOperations :
    Obligations.OutputsAreDrivenOnlyByTheirOperations := by
  intro s t h
  rcases stepped_of_step h with ⟨rx, arr, -, -, rfl⟩ | ⟨g, v, rest, -, -, rfl⟩ | ⟨rest, -, -, rfl⟩ |
    ⟨i, rx, arr, hi, -, hexec⟩
  · exact ⟨fun hne => absurd rfl hne, fun hne => absurd rfl hne⟩
  · exact ⟨fun hne => absurd rfl hne, fun hne => absurd rfl hne⟩
  · exact ⟨fun hne => absurd rfl hne, fun hne => absurd rfl hne⟩
  · rcases exec_outputs hexec with ⟨rfl, hcalls, hres⟩ | ⟨hcalls, hres | ⟨c, rfl, hres⟩⟩
    · refine ⟨fun _ => ⟨hi, _, hcalls, rfl, ?_⟩, fun _ => .inl ⟨hi, hres⟩⟩
      simp [enablesFor]
    · exact ⟨fun hne => absurd hcalls hne, fun hne => absurd hres hne⟩
    · refine ⟨fun hne => absurd hcalls hne, fun _ => .inr ⟨c, hi, ?_⟩⟩
      rwa [State.memRead_withInput] at hres

/-! ## The offsets after reset -/

/-- Settles O52: the twelve rows of the table, each evaluated. -/
theorem restStateOffsets : Obligations.RestStateOffsets := by
  unfold Obligations.RestStateOffsets
  decide

end Sys2Proof.Machine
end
